-- ==== Sys2Proof/Word.lean ====
section
/-! DEFINITION. The vector types of the codec: every port, signal and constant is an unsigned bit vector of a stated
width (00_scope R10). Nothing here computes a rule of the spec. -/

namespace Sys2Proof

/-- An n-bit vector, bit 0 least significant (00_scope R9). -/
abbrev Word (n : Nat) := BitVec n

/-- A byte: what carries a selector code to the decoder (log entry 4). The block itself has no byte interface
(20_memory R30). -/
abbrev Byte := BitVec 8

end Sys2Proof
end

