-- ==== Sys2Proof/Config.lean ====
section
/-! DEFINITION. What is fixed when a block is built (00_scope R3, R5, R8), and the values the spec leaves open
(70_reset_and_hazards R95, R96; 92_eei_decisions D12), which are opaque: nothing can evaluate them. -/

namespace Sys2Proof

/-- The three fixed parameter sets (00_scope R3). A build-time parameter of a block, never an input (R5). -/
inductive Variant where
  | A | B | C
  deriving DecidableEq, Repr

namespace Variant

/-- Codeword width n (00_scope R3). -/
def n : Variant → Nat
  | .A => 8 | .B => 16 | .C => 64

/-- Message bits k: value and tag (00_scope R3). -/
def k : Variant → Nat
  | .A => 4 | .B => 11 | .C => 57

/-- Hamming check bits r (00_scope R3). -/
def r : Variant → Nat
  | .A => 3 | .B => 4 | .C => 6

/-- Width VW = k - 1 of the value field and of the port ENC_VALUE (00_scope R8). -/
def vw : Variant → Nat
  | .A => 3 | .B => 10 | .C => 56

/-- The variant's code in OPSEL[2:1] (30_encoding R51). -/
def vcode : Variant → BitVec 2
  | .A => 0b00 | .B => 0b01 | .C => 0b10

end Variant

namespace Config

/-- POS_TAG: the tag's position, the same in every variant (00_scope R8). -/
def posTag : Nat := 0

/-- POS_PAR: the global parity bit's position, the same in every variant (00_scope R8). -/
def posPar : Nat := 1

/-- CHK_LO: check bit i stands at position CHK_LO + i (00_scope R8, 30_encoding R38). -/
def posChk : Nat := 2

/-- VAL_LO = r + 2: value bit j stands at position VAL_LO + j (00_scope R8, 30_encoding R38). -/
def posVal (r : Nat) : Nat := r + 2

/-- T_SETTLE, the minimum time the inputs of a unit must be stable before its outputs are valid. OPEN in the spec
(70_reset_and_hazards R95, 92_eei_decisions D12), in an unnamed unit of time: no value of it can be proved.
UNVERIFIED, log entry 7. -/
opaque tSettle : Variant → Nat

/-- The `draw`-th free value of an n-bit output read before its unit has settled (70_reset_and_hazards R95: "a draw, any
n-bit (or 2-bit) value"; R96 lets DEC_ERRCNT show 3). Log entry 7. -/
opaque unsettled : (n : Nat) → (draw : Nat) → Word n

end Config

end Sys2Proof
end

