-- ==== Sys2Proof/Syntax.lean ====
section
/-! DEFINITION. The operations of the block (one constructor per row of the opcode table), its ports, and what the
environment can ask: textual requests with integer operands (30_encoding R55) and connections between ports
(70_reset_and_hazards R97). -/

namespace Sys2Proof

/-- The six operations (30_encoding R51). They have no operand fields: their operands are the ports
(10_state R18, R19). -/
inductive Instr where
  | packA
  | correctA
  | packB
  | correctB
  | packC
  | correctC
  deriving DecidableEq, Repr

/-- The two units of a block instance (00_scope R2): the encoder performs PACK, the decoder performs CORRECT. -/
inductive CodecUnit where
  | encoder | decoder
  deriving DecidableEq, Repr

/-- The variant an operation belongs to (30_encoding R51). -/
def Instr.variant : Instr → Variant
  | .packA => .A | .correctA => .A
  | .packB => .B | .correctB => .B
  | .packC => .C | .correctC => .C

/-- The unit that performs an operation (30_encoding R51). -/
def Instr.unit : Instr → CodecUnit
  | .packA => .encoder | .correctA => .decoder
  | .packB => .encoder | .correctB => .decoder
  | .packC => .encoder | .correctC => .decoder

/-- OP, bit 0 of OPSEL: PACK is 0 and CORRECT is 1 (30_encoding R51). -/
def CodecUnit.op : CodecUnit → BitVec 1
  | .encoder => 0 | .decoder => 1

/-- The input ports of a block instance (10_state R18, R19). -/
inductive InPort where
  | encValue | encTag | decIn
  deriving DecidableEq, Repr

/-- The output ports of a block instance (10_state R18, R19). -/
inductive OutPort where
  | encCw | decErrcnt | decOut
  deriving DecidableEq, Repr

/-- The unit an input port belongs to; the units share no port (10_state R20). -/
def InPort.unit : InPort → CodecUnit
  | .encValue => .encoder | .encTag => .encoder | .decIn => .decoder

/-- The unit an output port belongs to (10_state R18, R19). -/
def OutPort.unit : OutPort → CodecUnit
  | .encCw => .encoder | .decErrcnt => .decoder | .decOut => .decoder

/-- One operation line of the textual notation, its operands still integers: `PACK.V value, tag` and `CORRECT.V word`
(30_encoding R55, 40_encoder R62, R63). -/
inductive Request where
  | pack (v : Variant) (value tag : Int)
  | correct (v : Variant) (word : Int)
  deriving DecidableEq, Repr

/-- A connection the environment makes from an output port to an input port, with or without a storage element in
between (70_reset_and_hazards R97). -/
structure Wire where
  source : Variant × OutPort
  target : Variant × InPort
  storage : Bool
  deriving DecidableEq, Repr

/-- Why a byte is no operation. -/
inductive DecodeError where
  /-- OPSEL 110 or 111: names no variant (30_encoding R52). -/
  | reservedSelector (code : BitVec 3)
  /-- The byte holds more than the three bits of OPSEL (log entry 4). -/
  | notSelector (byte : Byte)
  deriving DecidableEq, Repr

end Sys2Proof
end

