-- ==== Sys2Proof/Machine/State.lean ====
section
/-! DEFINITION. The state as plain data, the reasons a step stops, and the state at power-up. The block has no storage
(10_state R14): "The model's whole state is therefore the current value of the input ports". Beside the input ports State
holds the value last taken at each output port (95_test_vectors section 3), the request, and the index of the next free
value. -/

namespace Sys2Proof.Machine

/-- The decoder's error count: exactly three values (30_encoding R53). -/
inductive ErrCount where
  | zero | one | two
  deriving DecidableEq, Repr

/-- The ports of one block instance with codeword width `n` and value width `vw` (10_state R18, R19). An input port that
is not driven holds `none` (70_reset_and_hazards R93). An output field holds the value an operation drove for the
inputs as they now stand, and `none` where no operation has run since they changed: no output is stored by the block (10_state
R27), log entry 2. -/
structure Block (n vw : Nat) where
  /-- Input port ENC_VALUE. -/
  encValue : Option (Word vw)
  /-- Input port ENC_TAG. -/
  encTag : Option (Word 1)
  /-- Input port DEC_IN. -/
  decIn : Option (Word n)
  /-- The value taken at output port ENC_CW. -/
  encCw : Option (Word n)
  /-- The value taken at output port DEC_ERRCNT. -/
  decErrcnt : Option ErrCount
  /-- The value taken at output port DEC_OUT. -/
  decOut : Option (Word n)
  deriving DecidableEq, Repr

/-- A block instance with no input driven and no output taken (70_reset_and_hazards R92, R93). -/
def Block.undriven (n vw : Nat) : Block n vw :=
  { encValue := none, encTag := none, decIn := none, encCw := none, decErrcnt := none, decOut := none }

/-- Why the model has no meaning for what is asked. -/
inductive Refusal where
  /-- Raised by exec for an instruction whose meaning is not written; no instruction of this model is one. Safe. -/
  | notModelled (mnemonic : String)
  /-- Raised by a step whose request is OPSEL 110 or 111 (30_encoding R52). Safe: no hardware can be built for them. -/
  | reservedSelector (code : BitVec 3)
  /-- Raised by a step whose request is a byte that is no OPSEL code (log entry 4). Safe. -/
  | notSelector (byte : Byte)
  /-- Raised by a step that requests several bytes none of which is an operation; it carries the reason of each
  (30_encoding R52, log entry 10). Safe. -/
  | noOperation (reasons : List DecodeError)
  /-- Raised by a request with an integer operand that does not fit its port (40_encoder R62, log entry 9). Safe. -/
  | operandOutOfRange (r : Request)
  /-- Raised by a connection list that closes a combinational loop (70_reset_and_hazards R97). Safe. -/
  | combinationalFeedback
  deriving DecidableEq, Repr

/-- Why one of several things requested in a step has no result. -/
inductive Stop where
  /-- An operation of variant `v` is stuck: its input port `p` is not driven (70_reset_and_hazards R93). -/
  | notDriven (v : Variant) (p : InPort)
  /-- A CORRECT of variant `v` met the syndrome `syn`, which has no position (60_exceptions R82). -/
  | violation (v : Variant) (syn : Nat)
  /-- It is refused: it is no operation (30_encoding R52). -/
  | byRefusal (reason : Refusal)
  deriving DecidableEq, Repr

/-- Why the machine stops. -/
inductive Fault where
  /-- Raised by an operation of variant `v` requested while its input port `p` is not driven: the operation is stuck, "not
  given a value" (70_reset_and_hazards R93). Safe: the model stops, and the spec gives no result. -/
  | inputNotDriven (v : Variant) (p : InPort)
  /-- Raised by CORRECT of variant `v` in case 4 when the syndrome `syn` has no position (60_exceptions R82). Safe, and
  exact: the spec names this fault, and it is unreachable for A, B and C (R83). -/
  | invariantViolation (v : Variant) (syn : Nat)
  /-- Raised by a step that requests several bytes, an operation among them, when not one operation completes; it carries the
  stop of each, in ascending order of the bytes, whatever order they are listed in (60_exceptions R86, log entry 10). Safe. -/
  | noneCompleted (stops : List Stop)
  deriving DecidableEq, Repr

/-- One block instance of each variant (00_scope R3, 60_exceptions R90, log entry 1), the operations the environment
requests, and the model's own record of stops and count of free values used. -/
structure State where
  /-- The instance of variant A: n = 8, VW = 3. -/
  a : Block 8 3
  /-- The instance of variant B: n = 16, VW = 10. -/
  b : Block 16 10
  /-- The instance of variant C: n = 64, VW = 56. -/
  c : Block 64 56
  /-- The selectors of the operations a step evaluates: the model's own field (30_encoding R51, log entry 4). -/
  request : List Byte
  /-- What had no result in the last step, in which another operation completed: the model's own field, without repeats. An invariant
  violation is never taken out ("final for that model run and never cleared", 60_exceptions R82, log entry 10). -/
  stops : List Stop
  /-- How many outputs were read before settling: the model's own field (70_reset_and_hazards R95, log entry 7). -/
  draws : Nat
  deriving DecidableEq, Repr

/-- Power-up: there is no reset input and nothing to reset (70_reset_and_hazards R92). No input is driven (R93), no
output taken, nothing requested, nothing stopped (log entries 3, 4, 7, 10). -/
def State.reset : State :=
  { a := Block.undriven 8 3
    b := Block.undriven 16 10
    c := Block.undriven 64 56
    request := []
    stops := []
    draws := 0 }

end Sys2Proof.Machine
end

