-- ==== Sys2Proof/Machine/Flags.lean ====
section
/-! DEFINITION. The block's only status output, DEC_ERRCNT (10_state R21): the decision table over PAR and SYN
(41_decoder R70, 60_exceptions R80, R81) and its 2-bit encoding (30_encoding R53). -/

namespace Sys2Proof.Machine

/-- The four rows of the decision table (41_decoder R70). -/
inductive DecisionRow where
  /-- Case 1: `PAR = 0`, `SYN = 0`. -/
  | noError
  /-- Case 2: `PAR = 0`, `SYN ≠ 0`. -/
  | doubleError
  /-- Case 3: `PAR = 1`, `SYN = 0`. -/
  | parityBit
  /-- Case 4: `PAR = 1`, `SYN ≠ 0`. -/
  | located
  deriving DecidableEq, Repr

/-- The row an input falls in: mutually exclusive and together exhaustive (60_exceptions R81). -/
def decisionRow {r : Nat} (par : Bool) (syn : Word r) : DecisionRow :=
  if par then (if syn = 0 then .parityBit else .located)
  else (if syn = 0 then .noError else .doubleError)

/-- The error count each row reports (60_exceptions R80). -/
def DecisionRow.errCount : DecisionRow → ErrCount
  | .noError => .zero
  | .doubleError => .two
  | .parityBit => .one
  | .located => .one

/-- The value of the port `DEC_ERRCNT[1:0]`; 3 is never driven (30_encoding R53). -/
def ErrCount.toBits : ErrCount → Word 2
  | .zero => 0b00
  | .one => 0b01
  | .two => 0b10

end Sys2Proof.Machine
end

