-- ==== Sys2Proof/Machine/Bits.lean ====
section
/-! DEFINITION. The bit operations every rule is built from: population count, parity, single-bit flips and the check-bit
subroutine (00_scope R11, 40_encoder R56, R64). -/

namespace Sys2Proof.Machine

/-- The number of 1 bits among the lowest `i` bits of `w`. -/
def popcountBelow {n : Nat} (w : Word n) : Nat → Nat
  | 0 => 0
  | i + 1 => popcountBelow w i + (w.getLsbD i).toNat

/-- The number of 1 bits of `w` (00_scope R11). -/
def popcount {n : Nat} (w : Word n) : Nat := popcountBelow w n

/-- The population count modulo 2, a single bit (00_scope R11). -/
def parity {n : Nat} (w : Word n) : Bool := popcount w % 2 == 1

/-- A single bit zero-extended to n bits and shifted to position `p` (00_scope R10). -/
def bitAt (n : Nat) (bit : Bool) (p : Nat) : Word n := (BitVec.ofBool bit).setWidth n <<< p

/-- The word with bit `p` inverted: `w ⊕ (1 << p)` (41_decoder R70). -/
def flipBit {n : Nat} (w : Word n) (p : Nat) : Word n := w ^^^ (1#n <<< p)

/-- The check bits of `x` for the covering masks from index `i` on, each at position `i + 2`. -/
def checkBitsFrom {n : Nat} (x : Word n) : Nat → List (Word n) → Word n
  | _, [] => 0
  | i, m :: ms => bitAt n (parity (x &&& m)) (i + 2) ||| checkBitsFrom x (i + 1) ms

/-- `CheckBits_V(x)`: bit `i + 2` is the parity of `x` under covering mask `i`, every other bit is 0 (40_encoder R56). -/
def checkBits {n : Nat} (masks : List (Word n)) (x : Word n) : Word n := checkBitsFrom x 0 masks

end Sys2Proof.Machine
end

