-- ==== Sys2Proof/WellFormed.lean ====
section
/-! DEFINITION. Which requests and connections are well-formed. An Instr has no operand, so every term of it is
well-formed: an ill-formed selector is a byte, which Decode refuses by name. -/

namespace Sys2Proof

/-- The integer is a value of an unsigned `width`-bit port. -/
def fitsPort (width : Nat) (x : Int) : Bool :=
  decide (0 ≤ x) && decide (x < 2 ^ width)

/-- A PACK request names a value in `[0, 2^(k-1) - 1]`, negative values excluded; any integer is a tag (40_encoder R62,
R63). A CORRECT request names an n-bit word (30_encoding R55: "Widths are the port widths"). -/
def Request.wellFormed : Request → Bool
  | .pack v value _ => fitsPort v.vw value
  | .correct v word => fitsPort v.n word

/-- A unit of one of the block instances: what a combinational path runs through. -/
abbrev UnitNode := Variant × CodecUnit

/-- The unit whose output drives the connection. -/
def Wire.sourceUnit (w : Wire) : UnitNode := (w.source.1, w.source.2.unit)

/-- The unit whose input the connection drives. -/
def Wire.targetUnit (w : Wire) : UnitNode := (w.target.1, w.target.2.unit)

/-- The six units that exist. -/
def unitNodes : List UnitNode :=
  [(.A, .encoder), (.A, .decoder), (.B, .encoder), (.B, .decoder), (.C, .encoder), (.C, .decoder)]

/-- The units some combinational path of at most `steps` connections leads to from one of `start`. Every output of a unit
depends on all its inputs, so a path passes through a unit freely. -/
def reachable (wires : List Wire) : Nat → List UnitNode → List UnitNode
  | 0, start => start
  | steps + 1, start =>
    reachable wires steps
      (unitNodes.filter fun u =>
        start.contains u || wires.any fun w => !w.storage && start.contains w.sourceUnit && w.targetUnit == u)

/-- No combinational path leads from a unit's output back to its own input (70_reset_and_hazards R97). A connection
through a storage element closes no path. That a loop through several units is one too is DEDUCED, log entry 8. -/
def wiringWellFormed (wires : List Wire) : Bool :=
  wires.all fun w => w.storage || !(reachable wires unitNodes.length [w.targetUnit]).contains w.sourceUnit

end Sys2Proof
end

