-- ==== Sys2Proof/Machine/Operands.lean ====
section
/-! DEFINITION. The fields of a codeword (30_encoding R38 to R40), the assembly of the intermediate word (40_encoder R57 step 1),
and the forms in which an operand reaches a port: port values, and integers (40_encoder R62, R63). -/

namespace Sys2Proof.Machine

/-- `TagF(w) = w[0]` (30_encoding R40). -/
def tagField {n : Nat} (w : Word n) : Word 1 := w.extractLsb' Config.posTag 1

/-- `ParF(w) = w[1]` (30_encoding R40). -/
def parityField {n : Nat} (w : Word n) : Word 1 := w.extractLsb' Config.posPar 1

/-- `ChkF(w) = w[r+1:2]` (30_encoding R40). -/
def checkField {n : Nat} (r : Nat) (w : Word n) : Word r := w.extractLsb' Config.posChk r

/-- `ValF(w) = w[n-1:r+2]`, of width `vw = k - 1` (30_encoding R40). -/
def valueField {n : Nat} (r vw : Nat) (w : Word n) : Word vw := w.extractLsb' (Config.posVal r) vw

/-- `CHKMASK_V = ((1 << r) - 1) << 2` (30_encoding R40). -/
def checkMask (n r : Nat) : Word n := ((1#n <<< r) - 1#n) <<< Config.posChk

/-- The intermediate word `I`: the value shifted left by `r + 2`, the tag at position 0 (40_encoder R57 step 1). -/
def intermediateWord (n r : Nat) {vw : Nat} (value : Word vw) (tag : Word 1) : Word n :=
  (value.setWidth n <<< Config.posVal r) ||| tag.setWidth n

/-- The two's-complement view of a codeword, for display only (00_scope R12). -/
def signedView {n : Nat} (w : Word n) : Int := (w.toNat : Int) - 2 ^ n * (w.getLsbD (n - 1)).toNat

/-- An integer operand as the value of a port: refused unless it fits (40_encoder R62). -/
def portOperand (width : Nat) (x : Int) : Option (Word width) :=
  if fitsPort width x then some (BitVec.ofInt width x) else none

/-- An integer tag: only its least significant bit is used (40_encoder R63). -/
def tagOperand (tag : Int) : Word 1 := BitVec.ofInt 1 tag

/-- The pseudo-operation FLIP: the word with each listed bit inverted in turn (30_encoding R55). -/
def flipBits {n : Nat} (w : Word n) : List Nat → Word n
  | [] => w
  | p :: ps => flipBits (flipBit w p) ps

/-- The pseudo-operation UNPACK: the value and the tag of a word (30_encoding R55). -/
def unpack {n : Nat} (r vw : Nat) (w : Word n) : Word vw × Word 1 := (valueField r vw w, tagField w)

end Sys2Proof.Machine
end

