-- ==== Sys2Proof/Decode.lean ====
section
/-! DEFINITION. The operation selector OPSEL[2:0] = {VCODE, OP} (30_encoding R51, R52): decoding, total on every byte, and
the encoder. -/

namespace Sys2Proof

/-- The table of 30_encoding R51; codes 110 and 111 are refused (R52). -/
def decodeOpsel (code : BitVec 3) : Except DecodeError Instr :=
  match code.toNat with
  | 0 => .ok .packA
  | 1 => .ok .correctA
  | 2 => .ok .packB
  | 3 => .ok .correctB
  | 4 => .ok .packC
  | 5 => .ok .correctC
  | _ => .error (.reservedSelector code)

/-- A byte carries OPSEL in its bits 2..0, the others zero. DESIGN CHOICE, log entry 4. -/
def decode (byte : Byte) : Except DecodeError Instr :=
  if byte.toNat < 8 then decodeOpsel (byte.setWidth 3) else .error (.notSelector byte)

/-- The selector code of an operation, as the table of 30_encoding R51 writes it. -/
def encodeOpsel : Instr → BitVec 3
  | .packA => 0b000
  | .correctA => 0b001
  | .packB => 0b010
  | .correctB => 0b011
  | .packC => 0b100
  | .correctC => 0b101

/-- The byte that carries an operation's selector. -/
def encode (i : Instr) : Byte := (encodeOpsel i).setWidth 8

/-- The word of an opcode-table row as the byte that carries it: the bits above `nbits` are zero. -/
def tableByte (nbits w : Nat) : Option Byte :=
  let bits := w % 2 ^ nbits
  if bits < 256 then some (BitVec.ofNat 8 bits) else none

/-- The operation read from an opcode-table word, bit 0 its least significant bit. -/
def decodeTableWord (nbits w : Nat) : Option Instr :=
  match tableByte nbits w with
  | none => none
  | some b => (decode b).toOption

end Sys2Proof
end

