-- ==== Sys2Proof/Machine/Ops.lean ====
section
/-! DEFINITION. The named operations over the ports: reading an operation's inputs, recording its outputs, and the
environment's driving and releasing of inputs (10_state R18 to R20, 20_memory R32, 70_reset_and_hazards R93).
There is no memory and no register to operate on (20_memory R28, 10_state R15), and no exception entry or return: "no state
is saved, no mode changes, and there is no vector" (60_exceptions R87, R88). -/

namespace Sys2Proof.Machine

namespace Block

variable {n vw : Nat}

/-! ### The environment's side: inputs. Changing an input discards what was taken from that unit's outputs for the old
input, since no output is stored (10_state R27, log entry 2). -/

/-- Drive ENC_VALUE. -/
def driveEncValue (b : Block n vw) (value : Word vw) : Block n vw :=
  { b with encValue := some value, encCw := none }

/-- Drive ENC_TAG. -/
def driveEncTag (b : Block n vw) (tag : Word 1) : Block n vw :=
  { b with encTag := some tag, encCw := none }

/-- Drive DEC_IN. -/
def driveDecIn (b : Block n vw) (word : Word n) : Block n vw :=
  { b with decIn := some word, decErrcnt := none, decOut := none }

/-- Drive both encoder inputs. -/
def driveEncoder (b : Block n vw) (value : Word vw) (tag : Word 1) : Block n vw :=
  (b.driveEncValue value).driveEncTag tag

/-- Stop driving the encoder's inputs. -/
def releaseEncoder (b : Block n vw) : Block n vw :=
  { b with encValue := none, encTag := none, encCw := none }

/-- Stop driving the decoder's input. -/
def releaseDecoder (b : Block n vw) : Block n vw :=
  { b with decIn := none, decErrcnt := none, decOut := none }

/-! ### An operation's side: one sample of all its inputs, one value on all its outputs (20_memory R32). -/

/-- The encoder's inputs, both driven; else the operation is stuck on the first that is not (70_reset_and_hazards R93). -/
def readEncoder (v : Variant) (b : Block n vw) : Except Fault (Word vw × Word 1) :=
  match b.encValue with
  | none => .error (.inputNotDriven v .encValue)
  | some value =>
    match b.encTag with
    | none => .error (.inputNotDriven v .encTag)
    | some tag => .ok (value, tag)

/-- The decoder's input, driven; else the operation is stuck (70_reset_and_hazards R93). -/
def readDecoder (v : Variant) (b : Block n vw) : Except Fault (Word n) :=
  match b.decIn with
  | none => .error (.inputNotDriven v .decIn)
  | some word => .ok word

/-- PACK drives all of ENC_CW. -/
def recordEncoder (b : Block n vw) (word : Word n) : Block n vw := { b with encCw := some word }

/-- CORRECT drives DEC_ERRCNT and DEC_OUT together. -/
def recordDecoder (b : Block n vw) (count : ErrCount) (word : Word n) : Block n vw :=
  { b with decErrcnt := some count, decOut := some word }

/-- Drive with zeros those encoder inputs that are not driven. -/
def supplyEncoder (b : Block n vw) : Block n vw :=
  match b.encValue, b.encTag with
  | some _, some _ => b
  | some _, none => b.driveEncTag 0
  | none, some _ => b.driveEncValue 0
  | none, none => b.driveEncoder 0 0

/-- Drive DEC_IN with zeros if it is not driven. -/
def supplyDecoder (b : Block n vw) : Block n vw :=
  match b.decIn with
  | some _ => b
  | none => b.driveDecIn 0

end Block

/-- Replace the instance of variant A. -/
def State.putA (s : State) (x : Block 8 3) : State := { s with a := x }

/-- Replace the instance of variant B. -/
def State.putB (s : State) (x : Block 16 10) : State := { s with b := x }

/-- Replace the instance of variant C. -/
def State.putC (s : State) (x : Block 64 56) : State := { s with c := x }

/-- Set what the environment requests. -/
def State.putRequest (s : State) (bytes : List Byte) : State := { s with request := bytes }

/-- Set the record of stops. -/
def State.putStops (s : State) (stops : List Stop) : State := { s with stops := stops }

/-- Whether a stop stays on record in the steps after it: an invariant violation does (60_exceptions R82), an operation that was
stuck may complete once its inputs are driven (70_reset_and_hazards R93). -/
def Stop.isFinal : Stop → Bool
  | .notDriven _ _ => false
  | .violation _ _ => true
  | .byRefusal _ => false

/-- A step starts with the final stops alone on record. -/
def beginStep (s : State) : State := s.putStops (s.stops.filter Stop.isFinal)

/-- Put a stop on record, once. -/
def recordStop (stop : Stop) (s : State) : State :=
  if s.stops.contains stop then s else s.putStops (s.stops ++ [stop])

/-- The stops a fault consists of. -/
def Fault.stops : Fault → List Stop
  | .inputNotDriven v p => [.notDriven v p]
  | .invariantViolation v syn => [.violation v syn]
  | .noneCompleted stops => stops

/-- An operation's result put back into the state, or its fault: a fault gives no port a value (60_exceptions R82). -/
def finish {β : Type} (result : Except Fault β) (put : β → State) : Host.Outcome State Fault Refusal :=
  match result with
  | .ok x => .next (put x)
  | .error f => .fault f

/-- The refusal that answers a byte that is no operation (30_encoding R52). -/
def refusalOf : DecodeError → Refusal
  | .reservedSelector code => .reservedSelector code
  | .notSelector byte => .notSelector byte

/-- Supply the inputs an operation needs and the environment does not drive. Used by withFetchWord alone, to have an operation
run; no operation reads a value this way (log entry 5). -/
def supplyInputs (i : Instr) (s : State) : State :=
  match i with
  | .packA => s.putA s.a.supplyEncoder
  | .correctA => s.putA s.a.supplyDecoder
  | .packB => s.putB s.b.supplyEncoder
  | .correctB => s.putB s.b.supplyDecoder
  | .packC => s.putC s.c.supplyEncoder
  | .correctC => s.putC s.c.supplyDecoder

/-- The state in which the environment requests just the operation of byte `byte`, with every input of it driven. -/
def requestByte (s : State) (byte : Byte) : State :=
  match decode byte with
  | .ok i => (supplyInputs i s).putRequest [byte]
  | .error _ => s.putRequest [byte]

end Sys2Proof.Machine
end

