-- ==== Sys2Proof/Machine/Tables.lean ====
section
/-! DEFINITION. The constant tables of a variant (10_state R25): covering masks, Hamming indices, and the
syndrome-to-position map, twice: as their generator from a value-syndrome order (VSYN_ORDER_V, 30_encoding R41, R44, R49),
and written out for the default ascending order (R43, R46 to R48, R50), which is what the operations use (log entry 6). -/

namespace Sys2Proof.Machine

/-- The tables an operation reads: the covering masks M_V[0..r-1], and POS_V as pairs of a syndrome and a position. -/
structure Tables (n r : Nat) where
  masks : List (Word n)
  positions : List (Nat × Nat)
  deriving DecidableEq, Repr

/-! ### The generator -/

/-- RES_V: the check bits' powers of two and the tag's 3 (30_encoding R41(d)). -/
def reservedSyndromes (r : Nat) : List Nat := (List.range r).map (2 ^ ·) ++ [3]

/-- VSYN_V in ascending order: the syndromes in `[1, 2^r - 1]` that are not reserved (30_encoding R41(d)). It is also the
default VSYN_ORDER_V (00_scope R8). -/
def valueSyndromes (r : Nat) : List Nat :=
  (List.range (2 ^ r)).filter fun s => s != 0 && !(reservedSyndromes r).contains s

/-- A value-syndrome order: value bit `j` takes the `j`-th entry, and the entries are the value syndromes, each once
(30_encoding R41(d): "any bijection from value-bit indices onto VSYN_V"). -/
abbrev ValidOrder (r : Nat) (order : List Nat) : Prop := order.Perm (valueSyndromes r)

/-- HIDX_V(p): the syndrome a flip of bit `p` alone produces; none for the global parity bit (30_encoding R41). -/
def hammingIndex (r : Nat) (order : List Nat) (p : Nat) : Option Nat :=
  if p = Config.posTag then some 3
  else if p = Config.posPar then none
  else if p < Config.posVal r then some (2 ^ (p - Config.posChk))
  else order[p - Config.posVal r]?

/-- The tag and the value field: the positions a covering mask may hold (30_encoding R44). -/
def isDataPosition (r p : Nat) : Bool := p == Config.posTag || decide (Config.posVal r ≤ p)

/-- Whether covering mask `i` holds position `p` (30_encoding R44). -/
def covers (r : Nat) (order : List Nat) (i p : Nat) : Bool :=
  isDataPosition r p && ((hammingIndex r order p).getD 0).testBit i

/-- The n-bit vector whose bit `p`, for each `p` below `m`, is `f p`. -/
def vectorBelow (n : Nat) (f : Nat → Bool) : Nat → Word n
  | 0 => 0
  | m + 1 => vectorBelow n f m ||| ((BitVec.ofBool (f m)).setWidth n <<< m)

/-- M_V[i] (30_encoding R44). -/
def coveringMask (n r : Nat) (order : List Nat) (i : Nat) : Word n := vectorBelow n (covers r order i) n

/-- The position whose Hamming index is `s` (30_encoding R49). -/
def positionOf (n r : Nat) (order : List Nat) (s : Nat) : Option Nat :=
  (List.range n).find? fun p => hammingIndex r order p == some s

/-- POS_V as pairs in ascending syndrome order; syndrome 0 has none (30_encoding R49). -/
def positionPairs (n r : Nat) (order : List Nat) : List (Nat × Nat) :=
  (List.range (2 ^ r)).filterMap fun s => (positionOf n r order s).map fun p => (s, p)

/-- The masks and the map regenerated from an order (30_encoding R41(d), R44, R49). -/
def Tables.ofOrder (n r : Nat) (order : List Nat) : Tables n r :=
  { masks := (List.range r).map (coveringMask n r order), positions := positionPairs n r order }

/-- The position of a value syndrome in closed form, for the ascending order: `s` plus the number of reserved syndromes
above it (30_encoding R42, 90_conflicts C3). -/
def valuePosition (r s : Nat) : Nat := s + ((reservedSyndromes r).filter fun t => decide (s < t)).length

/-! ### The tables written out -/

/-- The Hamming index of each position, from position 0 up, variant A (30_encoding R43). -/
def hammingIndicesA : List (Option Nat) :=
    [some 3, none, some 1, some 2, some 4, some 5, some 6, some 7]

/-- The Hamming index of each position, from position 0 up, variant B (30_encoding R43). -/
def hammingIndicesB : List (Option Nat) :=
    [some 3, none, some 1, some 2, some 4, some 8, some 5, some 6,
      some 7, some 9, some 10, some 11, some 12, some 13, some 14, some 15]

/-- The Hamming index of each position, from position 0 up, variant C (30_encoding R43). -/
def hammingIndicesC : List (Option Nat) :=
    [some 3, none, some 1, some 2, some 4, some 8, some 16, some 32,
      some 5, some 6, some 7, some 9, some 10, some 11, some 12, some 13] ++
    [some 14, some 15, some 17, some 18, some 19, some 20, some 21, some 22,
      some 23, some 24, some 25, some 26, some 27, some 28, some 29, some 30] ++
    [some 31, some 33, some 34, some 35, some 36, some 37, some 38, some 39,
      some 40, some 41, some 42, some 43, some 44, some 45, some 46, some 47] ++
    [some 48, some 49, some 50, some 51, some 52, some 53, some 54, some 55,
      some 56, some 57, some 58, some 59, some 60, some 61, some 62, some 63]

/-- POS_A: pairs of a syndrome and the position it names (30_encoding R50). -/
def positionsA : List (Nat × Nat) :=
    [(1, 2), (2, 3), (3, 0), (4, 4), (5, 5), (6, 6), (7, 7)]

/-- POS_B: pairs of a syndrome and the position it names (30_encoding R50). -/
def positionsB : List (Nat × Nat) :=
    [(1, 2), (2, 3), (3, 0), (4, 4), (5, 6), (6, 7), (7, 8), (8, 5),
      (9, 9), (10, 10), (11, 11), (12, 12), (13, 13), (14, 14), (15, 15)]

/-- POS_C: pairs of a syndrome and the position it names (30_encoding R50). -/
def positionsC : List (Nat × Nat) :=
    [(1, 2), (2, 3), (3, 0), (4, 4), (5, 8), (6, 9), (7, 10), (8, 5),
      (9, 11), (10, 12), (11, 13), (12, 14), (13, 15), (14, 16), (15, 17), (16, 6)] ++
    [(17, 18), (18, 19), (19, 20), (20, 21), (21, 22), (22, 23), (23, 24), (24, 25),
      (25, 26), (26, 27), (27, 28), (28, 29), (29, 30), (30, 31), (31, 32), (32, 7)] ++
    [(33, 33), (34, 34), (35, 35), (36, 36), (37, 37), (38, 38), (39, 39), (40, 40),
      (41, 41), (42, 42), (43, 43), (44, 44), (45, 45), (46, 46), (47, 47), (48, 48)] ++
    [(49, 49), (50, 50), (51, 51), (52, 52), (53, 53), (54, 54), (55, 55), (56, 56),
      (57, 57), (58, 58), (59, 59), (60, 60), (61, 61), (62, 62), (63, 63)]

/-- The covering masks of variant A (30_encoding R46). -/
def masksA : List (Word 8) := [0xA1, 0xC1, 0xE0]

/-- The covering masks of variant B (30_encoding R47). -/
def masksB : List (Word 16) := [0xAB41, 0xCD81, 0xF1C0, 0xFE00]

/-- The covering masks of variant C (30_encoding R48). -/
def masksC : List (Word 64) :=
  [0xAAAAAAAB5556AD01, 0xCCCCCCCD999B3601, 0xF0F0F0F1E1E3C700, 0xFF00FF01FE03F800, 0xFFFF0001FFFC0000,
   0xFFFFFFFE00000000]

/-- The tables wired into the block of variant A. -/
def tablesA : Tables 8 3 := { masks := masksA, positions := positionsA }

/-- The tables wired into the block of variant B. -/
def tablesB : Tables 16 4 := { masks := masksB, positions := positionsB }

/-- The tables wired into the block of variant C. -/
def tablesC : Tables 64 6 := { masks := masksC, positions := positionsC }

end Sys2Proof.Machine
end

