-- ==== Sys2Proof/Machine/Decoder.lean ====
section
/-! DEFINITION. The syndrome decoder: its internal signals (41_decoder R65 to R69, 10_state R23), CORRECT generic over the
variant (R70), and CORRECT.A, CORRECT.B, CORRECT.C (R71 to R73). -/

namespace Sys2Proof.Machine

variable {n r vw : Nat}

/-- `STORED`: the received check field, left in place (41_decoder R66, 90_conflicts C5). -/
def storedCheck (r : Nat) (y : Word n) : Word n := y &&& checkMask n r

/-- `RECOMP`: the check bits recomputed from the received word, in place (41_decoder R67). -/
def recomputedCheck (t : Tables n r) (y : Word n) : Word n := checkBits t.masks y

/-- `SYN`: the r-bit syndrome; the shift comes after the XOR (41_decoder R68, 90_conflicts C5). -/
def syndrome (t : Tables n r) (y : Word n) : Word r :=
  ((recomputedCheck t y ^^^ storedCheck r y) >>> Config.posChk).setWidth r

/-- `EPOS = POS_V(SYN)`, where the map has an entry (41_decoder R69). -/
def errorPosition (t : Tables n r) (syn : Word r) : Option Nat := t.positions.lookup syn.toNat

/-- CORRECT_V: the error count and the word, or the syndrome that no position answers to (41_decoder R70). -/
def correctWord (t : Tables n r) (y : Word n) : Except (Word r) (ErrCount × Word n) :=
  let syn := syndrome t y
  let row := decisionRow (parity y) syn
  match row with
  | .noError => .ok (row.errCount, y)
  | .doubleError => .ok (row.errCount, 0)
  | .parityBit => .ok (row.errCount, flipBit y Config.posPar)
  | .located =>
    match errorPosition t syn with
    | none => .error syn
    | some p => .ok (row.errCount, flipBit y p)

/-- What DEC_ERRCNT and DEC_OUT show once settled: a function of the current input at any time
(70_reset_and_hazards R93), nothing while it is not driven. -/
def settledDecoder (t : Tables n r) (b : Block n vw) : Option (ErrCount × Word n) :=
  match b.decIn with
  | none => none
  | some y => (correctWord t y).toOption

/-- One CORRECT on a block instance: the input sampled, both outputs driven together (20_memory R32); in an invariant
violation neither is (60_exceptions R82). -/
def runCorrect (t : Tables n r) (v : Variant) (b : Block n vw) : Except Fault (Block n vw) :=
  match b.readDecoder v with
  | .error f => .error f
  | .ok y =>
    match correctWord t y with
    | .error syn => .error (.invariantViolation v syn.toNat)
    | .ok (count, word) => .ok (b.recordDecoder count word)

/-- CORRECT.A (41_decoder R71). -/
def execCorrectA (s : State) : Host.Outcome State Fault Refusal := finish (runCorrect tablesA .A s.a) s.putA

/-- CORRECT.B (41_decoder R72). -/
def execCorrectB (s : State) : Host.Outcome State Fault Refusal := finish (runCorrect tablesB .B s.b) s.putB

/-- CORRECT.C (41_decoder R73). -/
def execCorrectC (s : State) : Host.Outcome State Fault Refusal := finish (runCorrect tablesC .C s.c) s.putC

end Sys2Proof.Machine
end

