-- ==== Sys2Proof/Machine/Encoder.lean ====
section
/-! DEFINITION. The encoder: PACK generic over the variant (40_encoder R57) with its internal signals (10_state R22), and
PACK.A, PACK.B, PACK.C (R58 to R60). It has no error condition and no flag. -/

namespace Sys2Proof.Machine

variable {n r vw : Nat}

/-- `C`: the check bits of the intermediate word, in place (40_encoder R57 step 2). -/
def encoderCheck (t : Tables n r) (value : Word vw) (tag : Word 1) : Word n :=
  checkBits t.masks (intermediateWord n r value tag)

/-- `P`: the parity of the intermediate word with its check bits (40_encoder R57 step 3). -/
def encoderParity (t : Tables n r) (value : Word vw) (tag : Word 1) : Bool :=
  parity (intermediateWord n r value tag ||| encoderCheck t value tag)

/-- PACK_V: the codeword of a value and a tag (40_encoder R57). -/
def packWord (t : Tables n r) (value : Word vw) (tag : Word 1) : Word n :=
  intermediateWord n r value tag ||| encoderCheck t value tag |||
    bitAt n (encoderParity t value tag) Config.posPar

/-- What ENC_CW shows once settled: a function of the current inputs at any time (70_reset_and_hazards R93), nothing
while an input is not driven. -/
def settledEncCw (t : Tables n r) (b : Block n vw) : Option (Word n) :=
  match b.encValue, b.encTag with
  | some value, some tag => some (packWord t value tag)
  | _, _ => none

/-- One PACK on a block instance: both inputs sampled, ENC_CW driven, nothing else (20_memory R32). -/
def runPack (t : Tables n r) (v : Variant) (b : Block n vw) : Except Fault (Block n vw) :=
  match b.readEncoder v with
  | .error f => .error f
  | .ok (value, tag) => .ok (b.recordEncoder (packWord t value tag))

/-- PACK.A as a function of its ports (40_encoder R58). -/
def packA (value : Word 3) (tag : Word 1) : Word 8 := packWord tablesA value tag

/-- PACK.B as a function of its ports (40_encoder R59). -/
def packB (value : Word 10) (tag : Word 1) : Word 16 := packWord tablesB value tag

/-- PACK.C as a function of its ports (40_encoder R60). -/
def packC (value : Word 56) (tag : Word 1) : Word 64 := packWord tablesC value tag

/-- PACK.A (40_encoder R58). -/
def execPackA (s : State) : Host.Outcome State Fault Refusal := finish (runPack tablesA .A s.a) s.putA

/-- PACK.B (40_encoder R59). -/
def execPackB (s : State) : Host.Outcome State Fault Refusal := finish (runPack tablesB .B s.b) s.putB

/-- PACK.C (40_encoder R60). -/
def execPackC (s : State) : Host.Outcome State Fault Refusal := finish (runPack tablesC .C s.c) s.putC

end Sys2Proof.Machine
end

