-- ==== Sys2Proof/Machine/Dispatch.lean ====
section
/-! DEFINITION. One arm per operation of the opcode table (30_encoding R51). -/

namespace Sys2Proof.Machine

/-- The meaning of an operation. -/
def exec (i : Instr) (s : State) : Host.Outcome State Fault Refusal :=
  match i with
  | .packA => Sys2Proof.Machine.execPackA s
  | .correctA => Sys2Proof.Machine.execCorrectA s
  | .packB => Sys2Proof.Machine.execPackB s
  | .correctB => Sys2Proof.Machine.execCorrectB s
  | .packC => Sys2Proof.Machine.execPackC s
  | .correctC => Sys2Proof.Machine.execCorrectC s

end Sys2Proof.Machine
end

