-- ==== Sys2Proof/Machine/Together.lean ====
section
/-! DEFINITION. Several operations in one step (60_exceptions R90, 95_test_vectors P5), each with the result its own inputs
determine (20_memory R34). Units share no port and no operation reads an output (10_state R20), so evaluating them one after another is
evaluating them at once. An operation that stops affects no other (60_exceptions R87), and none is ordered against another (R86). -/

namespace Sys2Proof.Machine

/-- A byte added to a list in ascending order without repeats. -/
def insertByte (byte : Byte) : List Byte → List Byte
  | [] => [byte]
  | b :: bs =>
    if byte.toNat < b.toNat then byte :: b :: bs
    else if byte = b then b :: bs
    else b :: insertByte byte bs

/-- What is requested, whatever the order and the repeats of the list: the bytes in ascending order, each once. The order
is one of presentation, so that no event is ordered by the request (60_exceptions R86). -/
def requestedBytes : List Byte → List Byte
  | [] => []
  | b :: bs => insertByte b (requestedBytes bs)

/-- What one requested byte is answered: its operation evaluated, or a refusal if it is none (30_encoding R52). -/
def answer (byte : Byte) (s : State) : Host.Outcome State Fault Refusal :=
  match decode byte with
  | .error e => .refused (refusalOf e)
  | .ok i => exec i s

/-- Whether a requested byte is an operation that completes. -/
def completes (s : State) (byte : Byte) : Bool :=
  match answer byte s with
  | .next _ => true
  | .fault _ => false
  | .refused _ => false

/-- The stops of an answer that is no result. -/
def stopsOf : Host.Outcome State Fault Refusal → List Stop
  | .next _ => []
  | .fault f => f.stops
  | .refused q => [.byRefusal q]

/-- Put several stops on record. -/
def recordStops : List Stop → State → State
  | [], s => s
  | stop :: stops, s => recordStops stops (recordStop stop s)

/-- One of several requested bytes: its result is driven, or its stop goes on record and no port gets a value. -/
def takeAnswer (byte : Byte) (s : State) : State :=
  match answer byte s with
  | .next t => t
  | .fault f => recordStops f.stops s
  | .refused q => recordStop (.byRefusal q) s

/-- Every one of several requested bytes. -/
def takeAnswers : List Byte → State → State
  | [], s => s
  | b :: bs, s => takeAnswers bs (takeAnswer b s)

/-- The reason of each byte that is no operation. -/
def decodeErrors (bytes : List Byte) : List DecodeError :=
  bytes.filterMap fun b =>
    match decode b with
    | .error e => some e
    | .ok _ => none

/-- Several bytes of which no operation completes: a refusal if none is an operation, which is "never a fault" (30_encoding
R52), else a fault, either way with the reason of every one. That a stuck operation beside bytes that are no operation
makes it a fault is a DESIGN CHOICE, log entry 10: the spec does not say. -/
def noneCompletes (bytes : List Byte) (s : State) : Host.Outcome State Fault Refusal :=
  if (decodeErrors bytes).length = bytes.length then .refused (.noOperation (decodeErrors bytes))
  else .fault (.noneCompleted (bytes.flatMap fun b => stopsOf (answer b s)))

/-- What the environment requests, evaluated. Nothing requested changes nothing; one byte is answered as it is, its stop being
the step's. Of several, each operation that completes has its result, and what stops beside it, a byte that is no operation among
that, goes on record and affects no other (20_memory R34, 60_exceptions R87). That such a step goes on, and how it shows the stops, is a
DESIGN CHOICE, log entry 10. -/
def runRequest (s : State) : Host.Outcome State Fault Refusal :=
  match requestedBytes s.request with
  | [] => .next (beginStep s)
  | [b] => answer b (beginStep s)
  | b :: b' :: bs =>
    if (b :: b' :: bs).any (completes s) then .next (takeAnswers (b :: b' :: bs) (beginStep s))
    else noneCompletes (b :: b' :: bs) s

end Sys2Proof.Machine
end

