-- ==== Sys2Proof/Machine/Step.lean ====
section
/-! DEFINITION. One step of the machine: the operations the environment requests are evaluated on the current inputs, each
on its own. The request stands until the environment changes it: the block is combinational, and repeating an operation is harmless
(20_memory R33, log entry 4). There is no program counter to advance (10_state R16). -/

namespace Sys2Proof.Machine

/-- One step. -/
def step (s : State) : Host.Outcome State Fault Refusal := runRequest s

/-- The state in which the next step runs exactly the operation of the opcode-table word `w`: it is the only one requested,
and those of its inputs that are not driven are driven with zeros (log entry 5). A word wider than a byte is no operation, and
stands as a byte that is none. -/
def State.withFetchWord (s : State) (nbits w : Nat) : State :=
  requestByte s ((tableByte nbits w).getD 0xFF)

end Sys2Proof.Machine
end

