-- ==== Sys2Proof/Machine/Environment.lean ====
section
/-! DEFINITION. What the environment does around the block: operations requested with integer operands (30_encoding R55,
40_encoder R62, R63), outputs sampled after or before settling (70_reset_and_hazards R95, R96), ports connected (R97), and
codewords carried from the encoder to the decoder or latched back (30_encoding R55 FLIP; 41_decoder R78). None of these is an
operation of the block. -/

namespace Sys2Proof.Machine

/-! ### Requests with integer operands -/

/-- Go on with an operand that fits its port, or refuse the request. -/
def withOperand {width : Nat} (q : Request) (operand : Option (Word width))
    (go : Word width → Host.Outcome State Fault Refusal) : Host.Outcome State Fault Refusal :=
  match operand with
  | none => .refused (.operandOutOfRange q)
  | some x => go x

/-- An operation line of the notation: its operands are driven onto the ports and the operation evaluated, or it is
refused because an operand does not fit its port (40_encoder R62; for CORRECT, log entry 9). -/
def issue (q : Request) (s : State) : Host.Outcome State Fault Refusal :=
  match q with
  | .pack .A value tag => withOperand q (portOperand 3 value) fun x => exec .packA (s.putA (s.a.driveEncoder x (tagOperand tag)))
  | .pack .B value tag => withOperand q (portOperand 10 value) fun x => exec .packB (s.putB (s.b.driveEncoder x (tagOperand tag)))
  | .pack .C value tag => withOperand q (portOperand 56 value) fun x => exec .packC (s.putC (s.c.driveEncoder x (tagOperand tag)))
  | .correct .A word => withOperand q (portOperand 8 word) fun y => exec .correctA (s.putA (s.a.driveDecIn y))
  | .correct .B word => withOperand q (portOperand 16 word) fun y => exec .correctB (s.putB (s.b.driveDecIn y))
  | .correct .C word => withOperand q (portOperand 64 word) fun y => exec .correctC (s.putC (s.c.driveDecIn y))

/-! ### Sampling outputs -/

/-- The value read at an output port whose settled value is `settled`, when its unit's inputs have been stable for
`elapsed`: the settled value after at least T_SETTLE, a free value before (70_reset_and_hazards R95). -/
def sample {m : Nat} (v : Variant) (elapsed : Nat) (settled : Word m) (s : State) : Word m × State :=
  if Config.tSettle v ≤ elapsed then (settled, s)
  else (Config.unsettled m s.draws, { s with draws := s.draws + 1 })

/-- ENC_CW of a block instance of the state read after `elapsed`; stuck while an input is not driven (R93). -/
def sampleEncCw {n r vw : Nat} (t : Tables n r) (v : Variant) (b : Block n vw) (elapsed : Nat) (s : State) :
    Except Fault (Word n × State) :=
  match b.readEncoder v with
  | .error f => .error f
  | .ok (value, tag) => .ok (sample v elapsed (packWord t value tag) s)

/-- DEC_ERRCNT of a block instance of the state read after `elapsed`. Two bits: a read before settling may show 3 (R96). -/
def sampleDecErrcnt {n r vw : Nat} (t : Tables n r) (v : Variant) (b : Block n vw) (elapsed : Nat) (s : State) :
    Except Fault (Word 2 × State) :=
  match b.readDecoder v with
  | .error f => .error f
  | .ok y =>
    match correctWord t y with
    | .error syn => .error (.invariantViolation v syn.toNat)
    | .ok (count, _) => .ok (sample v elapsed count.toBits s)

/-- DEC_OUT of a block instance of the state read after `elapsed`. -/
def sampleDecOut {n r vw : Nat} (t : Tables n r) (v : Variant) (b : Block n vw) (elapsed : Nat) (s : State) :
    Except Fault (Word n × State) :=
  match b.readDecoder v with
  | .error f => .error f
  | .ok y =>
    match correctWord t y with
    | .error syn => .error (.invariantViolation v syn.toNat)
    | .ok (_, word) => .ok (sample v elapsed word s)

/-! ### Connections, channels and latches -/

/-- Connect ports: refused if the connections close a combinational loop (70_reset_and_hazards R97). A connection changes
no port value by itself. -/
def connect (wires : List Wire) (s : State) : Host.Outcome State Fault Refusal :=
  if wiringWellFormed wires then .next s else .refused .combinationalFeedback

/-- Drive DEC_IN with the word taken at ENC_CW, the listed bits inverted on the way: a channel that corrupts it
(30_encoding R55 FLIP). Nothing is driven while no word was taken. -/
def Block.transmit {n vw : Nat} (flips : List Nat) (b : Block n vw) : Block n vw :=
  match b.encCw with
  | some w => b.driveDecIn (flipBits w flips)
  | none => b

/-- Drive DEC_IN with the word taken at DEC_OUT, through storage: re-decoding is a second operation
(70_reset_and_hazards R97, 41_decoder R78). -/
def Block.latchDecOut {n vw : Nat} (b : Block n vw) : Block n vw :=
  match b.decOut with
  | some w => b.driveDecIn w
  | none => b

/-- The value and the tag the environment takes from DEC_OUT, after testing that DEC_ERRCNT is not 2: with 2 the word is the
sentinel and "carries no recovered information" (41_decoder R79, 70_reset_and_hazards R94(c)). -/
def Block.recover {n vw : Nat} (r : Nat) (b : Block n vw) : Option (Word vw × Word 1) :=
  match b.decErrcnt, b.decOut with
  | some .zero, some w => some (unpack r vw w)
  | some .one, some w => some (unpack r vw w)
  | _, _ => none

/-- The pseudo-operation ASSERT: whether the two values are the same (30_encoding R55). -/
def assertSame {α : Type} [DecidableEq α] (x y : α) : Bool := decide (x = y)

end Sys2Proof.Machine
end

