-- ==== Sys2Proof/Safety.lean ====
section
/-! DEFINITION. The terms claims use: valid codewords, inputs supplied, outputs that match their inputs, and the bit-by-bit
formulas of the per-variant rules. -/

namespace Sys2Proof.Safety

open Sys2Proof.Machine

variable {n r vw : Nat}

/-- A valid codeword: even population count and a consistent check field (30_encoding R54, 41_decoder R75). -/
def ValidCodeword (t : Tables n r) (w : Word n) : Prop := parity w = false ∧ syndrome t w = 0

/-- Whether a port of a block instance is driven. -/
def portDriven (x : Block n vw) : InPort → Bool
  | .encValue => x.encValue.isSome
  | .encTag => x.encTag.isSome
  | .decIn => x.decIn.isSome

/-- Whether a port of the variant's instance is driven. -/
def driven (s : State) : Variant → InPort → Bool
  | .A, p => portDriven s.a p
  | .B, p => portDriven s.b p
  | .C, p => portDriven s.c p

/-- All inputs of the unit that performs an operation are driven (70_reset_and_hazards R93). -/
def InputsDriven (i : Instr) (s : State) : Prop := ∀ p, p.unit = i.unit → driven s i.variant p = true

/-- Two states hold the same values at the output ports of the unit that performs an operation. -/
def SameOutputs : Instr → State → State → Prop
  | .packA, s, t => s.a.encCw = t.a.encCw
  | .correctA, s, t => s.a.decErrcnt = t.a.decErrcnt ∧ s.a.decOut = t.a.decOut
  | .packB, s, t => s.b.encCw = t.b.encCw
  | .correctB, s, t => s.b.decErrcnt = t.b.decErrcnt ∧ s.b.decOut = t.b.decOut
  | .packC, s, t => s.c.encCw = t.c.encCw
  | .correctC, s, t => s.c.decErrcnt = t.c.decErrcnt ∧ s.c.decOut = t.c.decOut

/-- Two block instances hold the same values at their input ports. -/
def SameBlockInputs (x y : Block n vw) : Prop :=
  x.encValue = y.encValue ∧ x.encTag = y.encTag ∧ x.decIn = y.decIn

/-- Two states agree on everything the environment sets: every input port, the request, and the free values used. -/
def SameEnvironment (s t : State) : Prop :=
  SameBlockInputs s.a t.a ∧ SameBlockInputs s.b t.b ∧ SameBlockInputs s.c t.c ∧
    s.request = t.request ∧ s.draws = t.draws

/-- A block instance whose recorded outputs, where there are any, are what its current inputs give: no output is stored
(10_state R27), and none depends on an earlier input (R14). -/
def BlockOutputsFollowInputs (t : Tables n r) (b : Block n vw) : Prop :=
  (b.encCw = none ∨ b.encCw = settledEncCw t b) ∧
  ((b.decErrcnt = none ∧ b.decOut = none) ∨
    ∃ count word, b.decErrcnt = some count ∧ b.decOut = some word ∧ settledDecoder t b = some (count, word))

/-- Every recorded output of the three instances is the function of its current inputs. -/
def OutputsFollowInputs (s : State) : Prop :=
  BlockOutputsFollowInputs tablesA s.a ∧ BlockOutputsFollowInputs tablesB s.b ∧ BlockOutputsFollowInputs tablesC s.c

/-- A block instance whose recorded output words are valid codewords, and whose decoder shows the sentinel 0 with error
count 2 (41_decoder R74, R78, R79). -/
def BlockOutputsAreCodewords (t : Tables n r) (b : Block n vw) : Prop :=
  (∀ w, b.encCw = some w → ValidCodeword t w) ∧
  (∀ w, b.decOut = some w → ValidCodeword t w) ∧
  (b.decErrcnt = some .two → b.decOut = some 0)

/-- Every recorded output word of the three instances is a valid codeword of its variant. -/
def OutputsAreCodewords (s : State) : Prop :=
  BlockOutputsAreCodewords tablesA s.a ∧ BlockOutputsAreCodewords tablesB s.b ∧ BlockOutputsAreCodewords tablesC s.c

/-- The exclusive or of the listed bits of `w`: the sums `v0 ⊕ v2 ⊕ …` of 40_encoder R58 to R60. -/
def xorBits {m : Nat} (w : Word m) : List Nat → Bool
  | [] => false
  | j :: js => w.getLsbD j ^^ xorBits w js

/-- The number of bit positions in which two words differ (40_encoder R61(f)). -/
def distance {m : Nat} (x y : Word m) : Nat := popcount (x ^^^ y)

/-- The decision table of 41_decoder R70, from the two signals and a position for each nonzero syndrome. -/
def decisionTable (par : Bool) (syn : Word r) (position : Nat → Nat) (y : Word n) : ErrCount × Word n :=
  if par = false then (if syn = 0 then (.zero, y) else (.two, 0))
  else if syn = 0 then (.one, y ^^^ (1#n <<< 1))
  else (.one, y ^^^ (1#n <<< position syn.toNat))

/-- POS_A as 41_decoder R71 lists it. -/
def rulePositionA : Nat → Nat
  | 1 => 2 | 2 => 3 | 3 => 0 | s => s

/-- POS_B as 41_decoder R72 lists it. -/
def rulePositionB : Nat → Nat
  | 1 => 2 | 2 => 3 | 3 => 0 | 4 => 4 | 5 => 6 | 6 => 7 | 7 => 8 | 8 => 5 | s => s

/-- POS_C as 41_decoder R73 lists it: the reserved syndromes one by one, the value syndromes in closed form. -/
def rulePositionC (s : Nat) : Nat :=
  if s = 1 then 2 else if s = 2 then 3 else if s = 3 then 0 else if s = 4 then 4
  else if s = 8 then 5 else if s = 16 then 6 else if s = 32 then 7
  else if s < 8 then s + 3 else if s < 16 then s + 2 else if s < 32 then s + 1 else s

/-- The parity-check rows H_A (41_decoder R68). -/
def checkRowsA : List (Word 8) := [0xA5, 0xC9, 0xF0]

/-- The parity-check rows H_B (41_decoder R68). -/
def checkRowsB : List (Word 16) := [0xAB45, 0xCD89, 0xF1D0, 0xFE20]

/-- The parity-check rows H_C (41_decoder R68). -/
def checkRowsC : List (Word 64) :=
  [0xAAAAAAAB5556AD05, 0xCCCCCCCD999B3609, 0xF0F0F0F1E1E3C710, 0xFF00FF01FE03F820, 0xFFFF0001FFFC0040,
   0xFFFFFFFE00000080]

/-- What 41_decoder R68 says of the syndrome: its definition, its rows, that it is linear, what a single bit gives, and that a codeword
adds nothing to it. -/
def SyndromeLaws (t : Tables n r) (rows : List (Word n)) (indices : List (Option Nat)) : Prop :=
  (∀ y : Word n, syndrome t y = ((checkBits t.masks y ^^^ (y &&& checkMask n r)) >>> 2).setWidth r) ∧
  (∀ (y : Word n) (i : Nat) (h : Word n), rows[i]? = some h → (syndrome t y).getLsbD i = parity (y &&& h)) ∧
  (∀ (i : Nat) (h m : Word n), rows[i]? = some h → t.masks[i]? = some m → h = m ||| (1#n <<< (i + 2))) ∧
  rows.length = r ∧
  (∀ x y : Word n, syndrome t (x ^^^ y) = syndrome t x ^^^ syndrome t y) ∧
  (∀ p < n, p ≠ 1 → indices[p]? = some (some (syndrome t (1#n <<< p)).toNat)) ∧
  syndrome t (1#n <<< 1) = 0 ∧
  (∀ w e : Word n, ValidCodeword t w → syndrome t (w ^^^ e) = syndrome t e)

/-- What 40_encoder R61 (a) to (f) says of the encoder's output. -/
def EncoderLaws (t : Tables n r) (vw : Nat) : Prop :=
  (∀ (v : Word vw) (g : Word 1), parity (packWord t v g) = false ∧
    (packWord t v g).getLsbD 1 = parity (packWord t v g &&& ~~~(1#n <<< 1))) ∧
  (∀ (v : Word vw) (g : Word 1),
    checkField r (packWord t v g) = checkField r (checkBits t.masks (packWord t v g)) ∧
      syndrome t (packWord t v g) = 0) ∧
  (∀ (v : Word vw) (g : Word 1),
    valueField r vw (packWord t v g) = v ∧ tagField (packWord t v g) = g) ∧
  (∀ (v v' : Word vw) (g g' : Word 1), packWord t v g = packWord t v' g' → v = v' ∧ g = g') ∧
  (∀ (v v' : Word vw) (g g' : Word 1),
    packWord t (v ^^^ v') (g ^^^ g') = packWord t v g ^^^ packWord t v' g') ∧
  packWord t (0 : Word vw) 0 = 0 ∧
  (∀ (v v' : Word vw) (g g' : Word 1), (v, g) ≠ (v', g') →
    4 ≤ distance (packWord t v g) (packWord t v' g'))

/-- What 41_decoder R75 to R77 says CORRECT answers for a packed word with no, one and two bits flipped, and 60_exceptions
R83: it always answers. -/
def SecDedLaws (t : Tables n r) (vw : Nat) : Prop :=
  (∀ (v : Word vw) (g : Word 1), correctWord t (packWord t v g) = .ok (.zero, packWord t v g)) ∧
  (∀ (v : Word vw) (g : Word 1), ∀ p < n,
    correctWord t (flipBit (packWord t v g) p) = .ok (.one, packWord t v g)) ∧
  (∀ (v : Word vw) (g : Word 1), ∀ p < n, ∀ q < n, p ≠ q →
    correctWord t (flipBit (flipBit (packWord t v g) p) q) = .ok (.two, 0)) ∧
  (∀ y : Word n, ∃ answer, correctWord t y = .ok answer)

/-- The error count CORRECT reports for a word; none if it answers with a fault (41_decoder R71 to R73 count these). -/
def reportedCount (t : Tables n r) (y : Word n) : Option ErrCount :=
  match correctWord t y with
  | .ok (count, _) => some count
  | .error _ => none

/-- How many n-bit words CORRECT answers with a given error count. -/
def wordsReported (t : Tables n r) (count : ErrCount) : Nat :=
  (Finset.univ.filter fun y : Word n => reportedCount t y = some count).card

/-- What the environment has after a packed word was sent through a channel that flips the listed bits, and decoded: with
nothing flipped or one bit, the word, and from it the value and the tag; with two different bits, the sentinel, and nothing
recovered (41_decoder R75 to R77, R79, 95_test_vectors P1, P2). -/
def ChannelResult (r : Nat) (flips : List Nat) (sent : Word n) (value : Word vw) (tag : Word 1) (x : Block n vw) : Prop :=
  (flips = [] → x.decErrcnt = some .zero ∧ x.decOut = some sent ∧ x.recover r = some (value, tag)) ∧
  (∀ p < n, flips = [p] → x.decErrcnt = some .one ∧ x.decOut = some sent ∧ x.recover r = some (value, tag)) ∧
  (∀ p < n, ∀ q < n, p ≠ q → flips = [p, q] →
    x.decErrcnt = some .two ∧ x.decOut = some 0 ∧ x.recover r = none)

end Sys2Proof.Safety
end

