-- ==== Sys2Proof/Certificates/Slice0/Obligations.lean ====
section
/-! DEFINITION. The statements for the provers. Each docstring names the rules a statement formalises, or what it rests on; a
clause that rests on a choice of the model names its log entry in the statement's text in OBLIGATIONS.json. -/

open Sys2Proof Sys2Proof.Machine Sys2Proof.Safety

/-- The six selector codes name the six operations, and each code is VCODE and OP.
States R51. -/
def Obligations.SelectorTableNamesSixOperations : Prop :=
  decodeOpsel 0b000 = .ok .packA ∧ decodeOpsel 0b001 = .ok .correctA ∧
  decodeOpsel 0b010 = .ok .packB ∧ decodeOpsel 0b011 = .ok .correctB ∧
  decodeOpsel 0b100 = .ok .packC ∧ decodeOpsel 0b101 = .ok .correctC ∧
  (Variant.vcode .A = 0b00 ∧ Variant.vcode .B = 0b01 ∧ Variant.vcode .C = 0b10) ∧
  (CodecUnit.op .encoder = 0 ∧ CodecUnit.op .decoder = 1) ∧
  (∀ i : Instr, encodeOpsel i = i.variant.vcode ++ i.unit.op) ∧
  (∀ (v : Variant) (u : CodecUnit), ∃ i : Instr, (i.variant = v ∧ i.unit = u) ∧
    ∀ j : Instr, j.variant = v ∧ j.unit = u → j = i)

/-- Decoding an encoded operation gives it back, and every byte that decodes is the encoding of what it decodes to.
Rests on 30_encoding.md R51, notes/assumptions/4.md. -/
def Obligations.DecodingInvertsEncoding : Prop :=
  (∀ i : Instr, decode (encode i) = .ok i) ∧
  (∀ (byte : Byte) (i : Instr), decode byte = .ok i ↔ byte = encode i)

/-- A step that requests selector 110 or 111 is refused by name, never a fault, and no variant has the code 11.
States R52. -/
def Obligations.ReservedSelectorsAreRefused : Prop :=
  (∀ (s : State) (code : BitVec 3), code = 0b110 ∨ code = 0b111 → s.request = [code.setWidth 8] →
    step s = .refused (.reservedSelector code)) ∧
  (∀ code : BitVec 3, code ≠ 0b110 → code ≠ 0b111 → ∃ i : Instr, decodeOpsel code = .ok i) ∧
  (∀ v : Variant, v.vcode ≠ 0b11)

/-- A step whose one requested byte decodes to an operation is exec of that operation, by the model's request field (log entry 4).
Rests on 10_state.md R16, 30_encoding.md R51, notes/assumptions/4.md, notes/assumptions/10.md. -/
def Obligations.StepRunsTheRequestedOperation : Prop :=
  ∀ (s : State) (byte : Byte) (i : Instr), s.request = [byte] → decode byte = .ok i →
    step s = exec i { s with stops := s.stops.filter Stop.isFinal } ∧ (s.stops = [] → step s = exec i s)

/-- Two operations give one result in either order, and in one step by the model's request list (log entries 4 and 10, design choices).
Rests on 20_memory.md R34, 60_exceptions.md R90, 95_test_vectors.md P5, notes/assumptions/4.md, notes/assumptions/10.md. -/
def Obligations.OperationsInOneStepDoNotInteract : Prop :=
  ∀ (i j : Instr) (s t u : State), exec i s = .next t → exec j s = .next u →
    ∃ x, exec j t = .next x ∧ exec i u = .next x ∧
      step (s.putRequest [encode i, encode j]) = .next ((beginStep x).putRequest [encode i, encode j])

/-- In a step that completes any operation, each requested one has its own result, and one that stops affects no other.
Rests on 20_memory.md R34, 60_exceptions.md R86, 60_exceptions.md R87, 60_exceptions.md R90, notes/assumptions/4.md, notes/assumptions/10.md. -/
def Obligations.EachRequestedOperationHasItsOwnResult : Prop :=
  ∀ (s : State) (i : Instr) (u : State), encode i ∈ s.request → exec i s = .next u →
    ∃ t, step s = .next t ∧ SameEnvironment s t ∧
      (∀ (j : Instr) (w : State), encode j ∈ s.request → exec j s = .next w → SameOutputs j t w) ∧
      (∀ j : Instr, (encode j ∉ s.request ∨ ∀ w, exec j s ≠ .next w) → SameOutputs j t s) ∧
      (∀ (j : Instr) (f : Fault), encode j ∈ s.request → exec j s = .fault f → ∀ stop ∈ f.stops, stop ∈ t.stops) ∧
      (∀ (byte : Byte) (e : DecodeError), byte ∈ s.request → decode byte = .error e →
        Stop.byRefusal (refusalOf e) ∈ t.stops)

/-- A step that completes none of several requested bytes stops with the reason of every one, by the model's choice (log entry 10).
Rests on 60_exceptions.md R86, 30_encoding.md R52, 70_reset_and_hazards.md R93, notes/assumptions/10.md. -/
def Obligations.StepWithNoResultNamesEveryStop : Prop :=
  ∀ (s : State) (x y : Byte), x ∈ s.request → y ∈ s.request → x ≠ y →
    (∀ (i : Instr) (u : State), encode i ∈ s.request → exec i s ≠ .next u) →
    ((∀ i : Instr, encode i ∉ s.request) → ∃ reasons, step s = .refused (.noOperation reasons) ∧
      ∀ (byte : Byte) (e : DecodeError), byte ∈ s.request → decode byte = .error e → e ∈ reasons) ∧
    ((∃ i : Instr, encode i ∈ s.request) → ∃ stops, step s = .fault (.noneCompleted stops) ∧
      (∀ (j : Instr) (f : Fault), encode j ∈ s.request → exec j s = .fault f → ∀ stop ∈ f.stops, stop ∈ stops) ∧
      (∀ (byte : Byte) (e : DecodeError), byte ∈ s.request → decode byte = .error e →
        Stop.byRefusal (refusalOf e) ∈ stops))

/-- A step answers the same whatever the order and the repeats in which the operations are requested.
Rests on 60_exceptions.md R86, 20_memory.md R34, notes/assumptions/4.md, notes/assumptions/10.md. -/
def Obligations.OrderOfTheRequestDoesNotMatter : Prop :=
  ∀ (s : State) (bytes : List Byte), (∀ b, b ∈ bytes ↔ b ∈ s.request) →
    (∀ t, step s = .next t → step (s.putRequest bytes) = .next (t.putRequest bytes)) ∧
    (∀ f, step s = .fault f → step (s.putRequest bytes) = .fault f) ∧
    (∀ q, step s = .refused q → step (s.putRequest bytes) = .refused q)

/-- At power-up no input is driven, no output taken, nothing requested, and a step then changes nothing.
Rests on 70_reset_and_hazards.md R92, 70_reset_and_hazards.md R93, 10_state.md R27, notes/assumptions/3.md, notes/assumptions/4.md, notes/assumptions/7.md, notes/assumptions/10.md. -/
def Obligations.ResetHasNothingDriven : Prop :=
  (∀ (v : Variant) (p : InPort), driven State.reset v p = false) ∧
  State.reset.a.encCw = none ∧ State.reset.a.decErrcnt = none ∧ State.reset.a.decOut = none ∧
  State.reset.b.encCw = none ∧ State.reset.b.decErrcnt = none ∧ State.reset.b.decOut = none ∧
  State.reset.c.encCw = none ∧ State.reset.c.decErrcnt = none ∧ State.reset.c.decOut = none ∧
  State.reset.request = [] ∧ State.reset.stops = [] ∧ State.reset.draws = 0 ∧ step State.reset = .next State.reset

/-- An operation completes when all its inputs are driven, and is otherwise stuck on an input of its own that is not.
Rests on 70_reset_and_hazards.md R93. -/
def Obligations.OperationsRunExactlyWhenTheirInputsAreDriven : Prop :=
  ∀ (i : Instr) (s : State),
    (InputsDriven i s → ∃ t, exec i s = .next t) ∧
    (¬ InputsDriven i s → ∃ p : InPort, exec i s = .fault (.inputNotDriven i.variant p) ∧
      p.unit = i.unit ∧ driven s i.variant p = false)

/-- PACK.A drives the codeword of its formula, changes nothing else, and gives the 16 words of its table.
Rests on 40_encoder.md R57, 40_encoder.md R58, 00_scope.md R12, notes/assumptions/11.md. -/
def Obligations.PackAFollowsItsFormula : Prop :=
  (∀ (s : State) (v : Word 3) (t : Word 1), s.a.encValue = some v → s.a.encTag = some t →
    let I : Word 8 := v ++ 0#4 ++ t
    let c0 := t.getLsbD 0 ^^ xorBits v [0, 2]
    let c1 := t.getLsbD 0 ^^ xorBits v [1, 2]
    let c2 := xorBits v [0, 1, 2]
    let P := t.getLsbD 0 ^^ xorBits v [0, 1]
    let w : Word 8 :=
      v ++ BitVec.ofBool c2 ++ BitVec.ofBool c1 ++ BitVec.ofBool c0 ++
        BitVec.ofBool P ++ t
    let C : Word 8 := 0#3 ++ BitVec.ofBool c2 ++ BitVec.ofBool c1 ++ BitVec.ofBool c0 ++ 0#2
    exec .packA s = .next { s with a := { s.a with encCw := some w } } ∧
    c0 = parity (I &&& 0xA1) ∧
    c1 = parity (I &&& 0xC1) ∧
    c2 = parity (I &&& 0xE0) ∧
    P = parity (I &&& 0x61) ∧
    P = parity (I ||| C)) ∧
  packA 0 0 = 0 ∧ packA 0 1 = 0x0F ∧ packA 0b111 1 = 0xFF ∧ packA 0b111 0 = 0xF0 ∧
  (∀ (v : Word 3) (t : Word 1), signedView (packA v t) < 0 ↔ v.getLsbD 2 = true) ∧
  ([0b000, 0b001, 0b010, 0b011, 0b100, 0b101, 0b110, 0b111].map fun v => (packA v 0, packA v 1)) =
    [(0x00, 0x0F), (0x36, 0x39), (0x5A, 0x55), (0x6C, 0x63), (0x9C, 0x93), (0xAA, 0xA5), (0xC6, 0xC9), (0xF0, 0xFF)] ∧
  packA 0b001 0 = 0x36

/-- PACK.B drives the codeword of its formula and changes nothing else.
Rests on 40_encoder.md R57, 40_encoder.md R59, 00_scope.md R12, notes/assumptions/11.md. -/
def Obligations.PackBFollowsItsFormula : Prop :=
  (∀ (s : State) (v : Word 10) (t : Word 1), s.b.encValue = some v → s.b.encTag = some t →
    let I : Word 16 := v ++ 0#5 ++ t
    let c0 := t.getLsbD 0 ^^ xorBits v [0, 2, 3, 5, 7, 9]
    let c1 := t.getLsbD 0 ^^ xorBits v [1, 2, 4, 5, 8, 9]
    let c2 := xorBits v [0, 1, 2, 6, 7, 8, 9]
    let c3 := xorBits v [3, 4, 5, 6, 7, 8, 9]
    let P := t.getLsbD 0 ^^ xorBits v [0, 1, 3, 4, 6, 9]
    let w : Word 16 :=
      v ++ BitVec.ofBool c3 ++ BitVec.ofBool c2 ++ BitVec.ofBool c1 ++ BitVec.ofBool c0 ++
        BitVec.ofBool P ++ t
    let C : Word 16 := 0#10 ++ BitVec.ofBool c3 ++ BitVec.ofBool c2 ++ BitVec.ofBool c1 ++ BitVec.ofBool c0 ++ 0#2
    exec .packB s = .next { s with b := { s.b with encCw := some w } } ∧
    c0 = parity (I &&& 0xAB41) ∧
    c1 = parity (I &&& 0xCD81) ∧
    c2 = parity (I &&& 0xF1C0) ∧
    c3 = parity (I &&& 0xFE00) ∧
    P = parity (I &&& 0x96C1) ∧
    P = parity (I ||| C)) ∧
  packB 0 0 = 0 ∧ packB 0 1 = 0x0F ∧ packB 0x3FF 1 = 0xFFFF ∧ packB 0x3FF 0 = 0xFFF0 ∧
  (∀ (v : Word 10) (t : Word 1), signedView (packB v t) < 0 ↔ v.getLsbD 9 = true) ∧
  packB 0x2AA 1 = 0xAA95 ∧ intermediateWord 16 4 (0x2AA : Word 10) 1 = 0xAA81 ∧
  encoderCheck tablesB (0x2AA : Word 10) 1 = 0x0014 ∧ encoderParity tablesB (0x2AA : Word 10) 1 = false

/-- PACK.C drives the codeword of its formula and changes nothing else.
Rests on 40_encoder.md R57, 40_encoder.md R60, 00_scope.md R12, notes/assumptions/11.md. -/
def Obligations.PackCFollowsItsFormula : Prop :=
  (∀ (s : State) (v : Word 56) (t : Word 1), s.c.encValue = some v → s.c.encTag = some t →
    let I : Word 64 := v ++ 0#7 ++ t
    let c0 := t.getLsbD 0 ^^ xorBits v [0, 2, 3, 5, 7, 9, 10, 12, 14, 16, 18, 20, 22, 24, 25, 27,
        29, 31, 33, 35, 37, 39, 41, 43, 45, 47, 49, 51, 53, 55]
    let c1 := t.getLsbD 0 ^^ xorBits v [1, 2, 4, 5, 8, 9, 11, 12, 15, 16, 19, 20, 23, 24, 26, 27,
        30, 31, 34, 35, 38, 39, 42, 43, 46, 47, 50, 51, 54, 55]
    let c2 := xorBits v [0, 1, 2, 6, 7, 8, 9, 13, 14, 15, 16, 21, 22, 23, 24, 28,
        29, 30, 31, 36, 37, 38, 39, 44, 45, 46, 47, 52, 53, 54, 55]
    let c3 := xorBits v [3, 4, 5, 6, 7, 8, 9, 17, 18, 19, 20, 21, 22, 23, 24, 32,
        33, 34, 35, 36, 37, 38, 39, 48, 49, 50, 51, 52, 53, 54, 55]
    let c4 := xorBits v [10, 11, 12, 13, 14, 15, 16, 17, 18, 19, 20, 21, 22, 23, 24, 40,
        41, 42, 43, 44, 45, 46, 47, 48, 49, 50, 51, 52, 53, 54, 55]
    let c5 := xorBits v [25, 26, 27, 28, 29, 30, 31, 32, 33, 34, 35, 36, 37, 38, 39, 40,
        41, 42, 43, 44, 45, 46, 47, 48, 49, 50, 51, 52, 53, 54, 55]
    let P := t.getLsbD 0 ^^ xorBits v [0, 1, 3, 4, 6, 9, 10, 11, 13, 16, 17, 20, 22, 23, 25, 26,
        28, 31, 32, 35, 37, 38, 40, 43, 45, 46, 49, 50, 52, 55]
    let w : Word 64 :=
      v ++ BitVec.ofBool c5 ++ BitVec.ofBool c4 ++ BitVec.ofBool c3 ++ BitVec.ofBool c2 ++ BitVec.ofBool c1 ++ BitVec.ofBool c0 ++
        BitVec.ofBool P ++ t
    let C : Word 64 := 0#56 ++ BitVec.ofBool c5 ++ BitVec.ofBool c4 ++ BitVec.ofBool c3 ++ BitVec.ofBool c2 ++ BitVec.ofBool c1 ++ BitVec.ofBool c0 ++ 0#2
    exec .packC s = .next { s with c := { s.c with encCw := some w } } ∧
    c0 = parity (I &&& 0xAAAAAAAB5556AD01) ∧
    c1 = parity (I &&& 0xCCCCCCCD999B3601) ∧
    c2 = parity (I &&& 0xF0F0F0F1E1E3C700) ∧
    c3 = parity (I &&& 0xFF00FF01FE03F800) ∧
    c4 = parity (I &&& 0xFFFF0001FFFC0000) ∧
    c5 = parity (I &&& 0xFFFFFFFE00000000) ∧
    P = parity (I &&& 0x96696996D32E5B01) ∧
    P = parity (I ||| C)) ∧
  packC 0 0 = 0 ∧ packC 0 1 = 0x0F ∧ packC 0xFFFFFFFFFFFFFF 1 = 0xFFFFFFFFFFFFFFFF ∧ packC 0xFFFFFFFFFFFFFF 0 = 0xFFFFFFFFFFFFFFF0 ∧
  (∀ (v : Word 56) (t : Word 1), signedView (packC v t) < 0 ↔ v.getLsbD 55 = true) ∧
  packC 0x123456789ABCDE 0 = 0x123456789ABCDE96 ∧
  intermediateWord 64 6 (0x123456789ABCDE : Word 56) 0 = 0x123456789ABCDE00 ∧
  encoderCheck tablesC (0x123456789ABCDE : Word 56) 0 = 0x94 ∧
  encoderParity tablesC (0x123456789ABCDE : Word 56) 0 = true

/-- PACK.A, PACK.B and PACK.C change no port and no field but the ENC_CW of their own instance.
Rests on 20_memory.md R33, 20_memory.md R32, 10_state.md R21. -/
def Obligations.PackChangesOnlyItsCodeword : Prop :=
  (∀ s t : State, exec .packA s = .next t → t = { s with a := { s.a with encCw := t.a.encCw } }) ∧
  (∀ s t : State, exec .packB s = .next t → t = { s with b := { s.b with encCw := t.b.encCw } }) ∧
  (∀ s t : State, exec .packC s = .next t → t = { s with c := { s.c with encCw := t.c.encCw } })

/-- CORRECT.A, CORRECT.B and CORRECT.C change no port and no field but the two decoder outputs of their own instance.
Rests on 20_memory.md R33, 20_memory.md R32, 10_state.md R21. -/
def Obligations.CorrectChangesOnlyItsOutputs : Prop :=
  (∀ s t : State, exec .correctA s = .next t →
    t = { s with a := { s.a with decErrcnt := t.a.decErrcnt, decOut := t.a.decOut } } ∧
      t.a.decErrcnt.isSome ∧ t.a.decOut.isSome) ∧
  (∀ s t : State, exec .correctB s = .next t →
    t = { s with b := { s.b with decErrcnt := t.b.decErrcnt, decOut := t.b.decOut } } ∧
      t.b.decErrcnt.isSome ∧ t.b.decOut.isSome) ∧
  (∀ s t : State, exec .correctC s = .next t →
    t = { s with c := { s.c with decErrcnt := t.c.decErrcnt, decOut := t.c.decOut } } ∧
      t.c.decErrcnt.isSome ∧ t.c.decOut.isSome)

/-- An operation run again on the state it left answers that same state.
Rests on 20_memory.md R33. -/
def Obligations.RepeatingAnOperationChangesNothing : Prop :=
  ∀ (i : Instr) (s t : State), exec i s = .next t → exec i t = .next t

/-- What an operation drives depends only on the inputs of its own unit and instance.
Rests on 20_memory.md R34, 10_state.md R14. -/
def Obligations.ResultsDependOnOwnInputsAlone : Prop :=
  (∀ s s' t t' : State, s.a.encValue = s'.a.encValue → s.a.encTag = s'.a.encTag →
    exec .packA s = .next t → exec .packA s' = .next t' → t.a.encCw = t'.a.encCw) ∧
  (∀ s s' t t' : State, s.b.encValue = s'.b.encValue → s.b.encTag = s'.b.encTag →
    exec .packB s = .next t → exec .packB s' = .next t' → t.b.encCw = t'.b.encCw) ∧
  (∀ s s' t t' : State, s.c.encValue = s'.c.encValue → s.c.encTag = s'.c.encTag →
    exec .packC s = .next t → exec .packC s' = .next t' → t.c.encCw = t'.c.encCw) ∧
  (∀ s s' t t' : State, s.a.decIn = s'.a.decIn →
    exec .correctA s = .next t → exec .correctA s' = .next t' →
      t.a.decErrcnt = t'.a.decErrcnt ∧ t.a.decOut = t'.a.decOut) ∧
  (∀ s s' t t' : State, s.b.decIn = s'.b.decIn →
    exec .correctB s = .next t → exec .correctB s' = .next t' →
      t.b.decErrcnt = t'.b.decErrcnt ∧ t.b.decOut = t'.b.decOut) ∧
  (∀ s s' t t' : State, s.c.decIn = s'.c.decIn →
    exec .correctC s = .next t → exec .correctC s' = .next t' →
      t.c.decErrcnt = t'.c.decErrcnt ∧ t.c.decOut = t'.c.decOut)

/-- Packed words have even parity and syndrome 0, carry their fields, are injective and linear, and differ in at least 4 bits.
States R61. -/
def Obligations.PackedWordsFormALinearDistanceFourCode : Prop :=
  EncoderLaws tablesA 3 ∧
  EncoderLaws tablesB 10 ∧
  EncoderLaws tablesC 56

/-- Bit i + 2 of CheckBits(x) is the parity of x under covering mask i, all other bits are 0, and bits 1..r+1 of x do not matter.
States R56. -/
def Obligations.CheckBitsAreMaskParities : Prop :=
  ((∀ (x m : Word 8) (i : Nat), tablesA.masks[i]? = some m →
      (checkBits tablesA.masks x).getLsbD (i + 2) = parity (x &&& m)) ∧
    (∀ (x : Word 8) (p : Nat), p < 2 ∨ 3 + 1 < p → (checkBits tablesA.masks x).getLsbD p = false) ∧
    (∀ x : Word 8, checkBits tablesA.masks x =
      checkBits tablesA.masks (x &&& ~~~(((1#8 <<< (3 + 1)) - 1#8) <<< 1))) ∧
    tablesA.masks.length = 3) ∧
  ((∀ (x m : Word 16) (i : Nat), tablesB.masks[i]? = some m →
      (checkBits tablesB.masks x).getLsbD (i + 2) = parity (x &&& m)) ∧
    (∀ (x : Word 16) (p : Nat), p < 2 ∨ 4 + 1 < p → (checkBits tablesB.masks x).getLsbD p = false) ∧
    (∀ x : Word 16, checkBits tablesB.masks x =
      checkBits tablesB.masks (x &&& ~~~(((1#16 <<< (4 + 1)) - 1#16) <<< 1))) ∧
    tablesB.masks.length = 4) ∧
  ((∀ (x m : Word 64) (i : Nat), tablesC.masks[i]? = some m →
      (checkBits tablesC.masks x).getLsbD (i + 2) = parity (x &&& m)) ∧
    (∀ (x : Word 64) (p : Nat), p < 2 ∨ 6 + 1 < p → (checkBits tablesC.masks x).getLsbD p = false) ∧
    (∀ x : Word 64, checkBits tablesC.masks x =
      checkBits tablesC.masks (x &&& ~~~(((1#64 <<< (6 + 1)) - 1#64) <<< 1))) ∧
    tablesC.masks.length = 6)

/-- CORRECT.A answers the decision table of its parity rows and position map, and changes nothing else.
Rests on 41_decoder.md R70, 41_decoder.md R71. -/
def Obligations.CorrectAFollowsItsFormula : Prop :=
  (∀ (s : State) (y : Word 8), s.a.decIn = some y →
    let SYN : Word 3 :=
      BitVec.ofBool (parity (y &&& 0xF0)) ++
      BitVec.ofBool (parity (y &&& 0xC9)) ++
      BitVec.ofBool (parity (y &&& 0xA5))
    let answer := decisionTable (parity y) SYN rulePositionA y
    exec .correctA s = .next { s with a := { s.a with decErrcnt := some answer.1, decOut := some answer.2 } }) ∧
  correctWord tablesA 0xED = .ok (.two, 0x00) ∧ syndrome tablesA 0xED = 4 ∧
  correctWord tablesA 0xE5 = .ok (.one, 0xA5)

/-- CORRECT.B answers the decision table of its parity rows and position map, and changes nothing else.
Rests on 41_decoder.md R70, 41_decoder.md R72. -/
def Obligations.CorrectBFollowsItsFormula : Prop :=
  (∀ (s : State) (y : Word 16), s.b.decIn = some y →
    let SYN : Word 4 :=
      BitVec.ofBool (parity (y &&& 0xFE20)) ++
      BitVec.ofBool (parity (y &&& 0xF1D0)) ++
      BitVec.ofBool (parity (y &&& 0xCD89)) ++
      BitVec.ofBool (parity (y &&& 0xAB45))
    let answer := decisionTable (parity y) SYN rulePositionB y
    exec .correctB s = .next { s with b := { s.b with decErrcnt := some answer.1, decOut := some answer.2 } }) ∧
  correctWord tablesB 0xAAD5 = .ok (.one, 0xAA95) ∧ syndrome tablesB 0xAAD5 = 5

/-- CORRECT.C answers the decision table of its parity rows and position map, and changes nothing else.
Rests on 41_decoder.md R70, 41_decoder.md R73. -/
def Obligations.CorrectCFollowsItsFormula : Prop :=
  (∀ (s : State) (y : Word 64), s.c.decIn = some y →
    let SYN : Word 6 :=
      BitVec.ofBool (parity (y &&& 0xFFFFFFFE00000080)) ++
      BitVec.ofBool (parity (y &&& 0xFFFF0001FFFC0040)) ++
      BitVec.ofBool (parity (y &&& 0xFF00FF01FE03F820)) ++
      BitVec.ofBool (parity (y &&& 0xF0F0F0F1E1E3C710)) ++
      BitVec.ofBool (parity (y &&& 0xCCCCCCCD999B3609)) ++
      BitVec.ofBool (parity (y &&& 0xAAAAAAAB5556AD05))
    let answer := decisionTable (parity y) SYN rulePositionC y
    exec .correctC s = .next { s with c := { s.c with decErrcnt := some answer.1, decOut := some answer.2 } }) ∧
  correctWord tablesC 0x123456789ABCDE16 = .ok (.one, 0x123456789ABCDE96) ∧
  syndrome tablesC 0x123456789ABCDE16 = 32

/-- The syndrome is the parity under the rows H, is linear, gives HIDX(p) for bit p alone, and 0 for the parity bit.
States R68. -/
def Obligations.SyndromeIsLinearWithOneIndexPerPosition : Prop :=
  SyndromeLaws tablesA checkRowsA hammingIndicesA ∧
  SyndromeLaws tablesB checkRowsB hammingIndicesB ∧
  SyndromeLaws tablesC checkRowsC hammingIndicesC

/-- CORRECT of a packed word reports 0 and returns it, and the packed words are all the words with parity 0 and syndrome 0.
States R75. -/
def Obligations.PackedWordsDecodeUnchanged : Prop :=
  ((∀ (s : State) (v : Word 3) (g : Word 1), s.a.decIn = some (packA v g) →
      exec .correctA s = .next (s.putA (s.a.recordDecoder .zero (packA v g)))) ∧
    (∀ w : Word 8, ValidCodeword tablesA w ↔ ∃ (v : Word 3) (g : Word 1), w = packA v g) ∧
    (Finset.univ.filter fun w : Word 8 => parity w = false ∧ syndrome tablesA w = 0).card = 2 ^ Variant.k .A) ∧
  ((∀ (s : State) (v : Word 10) (g : Word 1), s.b.decIn = some (packB v g) →
      exec .correctB s = .next (s.putB (s.b.recordDecoder .zero (packB v g)))) ∧
    (∀ w : Word 16, ValidCodeword tablesB w ↔ ∃ (v : Word 10) (g : Word 1), w = packB v g) ∧
    (Finset.univ.filter fun w : Word 16 => parity w = false ∧ syndrome tablesB w = 0).card = 2 ^ Variant.k .B) ∧
  ((∀ (s : State) (v : Word 56) (g : Word 1), s.c.decIn = some (packC v g) →
      exec .correctC s = .next (s.putC (s.c.recordDecoder .zero (packC v g)))) ∧
    (∀ w : Word 64, ValidCodeword tablesC w ↔ ∃ (v : Word 56) (g : Word 1), w = packC v g) ∧
    (Finset.univ.filter fun w : Word 64 => parity w = false ∧ syndrome tablesC w = 0).card = 2 ^ Variant.k .C)

/-- CORRECT of a packed word with any one bit flipped reports 1 and returns the packed word; a tag flip gives syndrome 3.
States R76. -/
def Obligations.EverySingleFlipIsCorrected : Prop :=
  ((∀ (s : State) (v : Word 3) (g : Word 1), ∀ p < 8, s.a.decIn = some (packA v g ^^^ (1#8 <<< p)) →
      exec .correctA s = .next (s.putA (s.a.recordDecoder .one (packA v g)))) ∧
    (∀ (v : Word 3) (g : Word 1), syndrome tablesA (packA v g ^^^ 1#8) = 3)) ∧
  ((∀ (s : State) (v : Word 10) (g : Word 1), ∀ p < 16, s.b.decIn = some (packB v g ^^^ (1#16 <<< p)) →
      exec .correctB s = .next (s.putB (s.b.recordDecoder .one (packB v g)))) ∧
    (∀ (v : Word 10) (g : Word 1), syndrome tablesB (packB v g ^^^ 1#16) = 3)) ∧
  ((∀ (s : State) (v : Word 56) (g : Word 1), ∀ p < 64, s.c.decIn = some (packC v g ^^^ (1#64 <<< p)) →
      exec .correctC s = .next (s.putC (s.c.recordDecoder .one (packC v g)))) ∧
    (∀ (v : Word 56) (g : Word 1), syndrome tablesC (packC v g ^^^ 1#64) = 3))

/-- CORRECT of a packed word with any two different bits flipped reports 2 and returns the sentinel 0.
States R77. -/
def Obligations.EveryDoubleFlipIsDetected : Prop :=
  (∀ (s : State) (v : Word 3) (g : Word 1), ∀ p < 8, ∀ q < 8, p ≠ q →
    s.a.decIn = some (packA v g ^^^ (1#8 <<< p) ^^^ (1#8 <<< q)) →
    exec .correctA s = .next (s.putA (s.a.recordDecoder .two 0))) ∧
  (∀ (s : State) (v : Word 10) (g : Word 1), ∀ p < 16, ∀ q < 16, p ≠ q →
    s.b.decIn = some (packB v g ^^^ (1#16 <<< p) ^^^ (1#16 <<< q)) →
    exec .correctB s = .next (s.putB (s.b.recordDecoder .two 0))) ∧
  (∀ (s : State) (v : Word 56) (g : Word 1), ∀ p < 64, ∀ q < 64, p ≠ q →
    s.c.decIn = some (packC v g ^^^ (1#64 <<< p) ^^^ (1#64 <<< q)) →
    exec .correctC s = .next (s.putC (s.c.recordDecoder .two 0)))

/-- For every input whatever, CORRECT of what CORRECT returned reports 0 and returns it unchanged.
States R78. -/
def Obligations.DecodingTwiceIsIdempotent : Prop :=
  (∀ (s t : State) (o : Word 8), exec .correctA s = .next t → t.a.decOut = some o →
    exec .correctA (t.putA (t.a.driveDecIn o)) =
      .next ((t.putA (t.a.driveDecIn o)).putA ((t.a.driveDecIn o).recordDecoder .zero o))) ∧
  (∀ (s t : State) (o : Word 16), exec .correctB s = .next t → t.b.decOut = some o →
    exec .correctB (t.putB (t.b.driveDecIn o)) =
      .next ((t.putB (t.b.driveDecIn o)).putB ((t.b.driveDecIn o).recordDecoder .zero o))) ∧
  (∀ (s t : State) (o : Word 64), exec .correctC s = .next t → t.c.decOut = some o →
    exec .correctC (t.putC (t.c.driveDecIn o)) =
      .next ((t.putC (t.c.driveDecIn o)).putC ((t.c.driveDecIn o).recordDecoder .zero o)))

/-- No operation ever ends in an invariant violation: every nonzero syndrome of A, B and C has a position.
States R83. -/
def Obligations.InvariantViolationIsUnreachable : Prop :=
  (∀ (i : Instr) (s : State) (v : Variant) (syn : Nat), exec i s ≠ .fault (.invariantViolation v syn)) ∧
  (∀ syn : Word 3, syn ≠ 0 → ∃ p < 8, errorPosition tablesA syn = some p) ∧
  (∀ syn : Word 4, syn ≠ 0 → ∃ p < 16, errorPosition tablesB syn = some p) ∧
  (∀ syn : Word 6, syn ≠ 0 → ∃ p < 64, errorPosition tablesC syn = some p)

/-- Under any tables, case 4 with a syndrome the map does not place ends in the fault that carries it, and a faulted run stays so.
States R82. -/
def Obligations.UnmappedSyndromeFaultsForGood : Prop :=
  (∀ (n r vw : Nat) (t : Tables n r) (v : Variant) (b : Block n vw) (y : Word n), b.decIn = some y →
    parity y = true → syndrome t y ≠ 0 → errorPosition t (syndrome t y) = none →
    runCorrect t v b = .error (.invariantViolation v (syndrome t y).toNat)) ∧
  (∀ (s : State) (f : Fault) (k : Nat), step s = .fault f →
    (Host.Core.run Sys2Proof.core (k + 1) s : Host.Outcome State Fault Refusal) = .fault f)

/-- Of all inputs, 2^k are reported as error-free, half as single errors and the rest as double errors.
Rests on 41_decoder.md R71, 41_decoder.md R72, 41_decoder.md R73. -/
def Obligations.ErrorCountsPartitionAllWords : Prop :=
  (wordsReported tablesA .zero = 16 ∧ wordsReported tablesA .one = 128 ∧ wordsReported tablesA .two = 112) ∧
  (wordsReported tablesB .zero = 2048 ∧ wordsReported tablesB .one = 32768 ∧ wordsReported tablesB .two = 30720) ∧
  (wordsReported tablesC .zero = 2 ^ 57 ∧ wordsReported tablesC .one = 2 ^ 63 ∧
    wordsReported tablesC .two = 2 ^ 63 - 2 ^ 57)

/-- Whatever was received, the word CORRECT returns is a valid codeword, at most one bit from the input or the sentinel.
Rests on 41_decoder.md R74, 41_decoder.md R70, 41_decoder.md R78. -/
def Obligations.EveryAnswerIsACodewordNearTheInput : Prop :=
  (∀ (y o : Word 8) (e : ErrCount), correctWord tablesA y = .ok (e, o) →
    ValidCodeword tablesA o ∧ (e = .zero → o = y) ∧ (e = .one → distance y o = 1) ∧ (e = .two → o = 0)) ∧
  (∀ (y o : Word 16) (e : ErrCount), correctWord tablesB y = .ok (e, o) →
    ValidCodeword tablesB o ∧ (e = .zero → o = y) ∧ (e = .one → distance y o = 1) ∧ (e = .two → o = 0)) ∧
  (∀ (y o : Word 64) (e : ErrCount), correctWord tablesC y = .ok (e, o) →
    ValidCodeword tablesC o ∧ (e = .zero → o = y) ∧ (e = .one → distance y o = 1) ∧ (e = .two → o = 0)) ∧
  correctWord tablesA 0xA2 = .ok (.one, 0xAA) ∧ correctWord tablesA 0xAA = .ok (.zero, 0xAA)

/-- The error counts no error, one and two are encoded as 00, 01 and 10, and no error count as 11.
States R53. -/
def Obligations.ErrorCountsAreEncodedBelowThree : Prop :=
  ErrCount.toBits .zero = 0b00 ∧ ErrCount.toBits .one = 0b01 ∧ ErrCount.toBits .two = 0b10 ∧
  (∀ e : ErrCount, e.toBits ≠ 0b11) ∧ (∀ e e' : ErrCount, e.toBits = e'.toBits → e = e')

/-- The tag is bit 0, the parity bit 1, check bit i bit i+2 and value bit j bit r+2+j, and CHKMASK is 0x1C, 0x3C and 0xFC.
States R40. -/
def Obligations.CodewordFieldsAreBitRanges : Prop :=
  ((∀ w : Word 8, (tagField w).getLsbD 0 = w.getLsbD 0 ∧ (parityField w).getLsbD 0 = w.getLsbD 1 ∧
      (∀ i < 3, (checkField 3 w).getLsbD i = w.getLsbD (i + 2)) ∧
      (∀ j < 3, (valueField 3 3 w).getLsbD j = w.getLsbD (3 + 2 + j))) ∧
    (∀ p < 8, (checkMask 8 3).getLsbD p = (decide (2 ≤ p) && decide (p ≤ 3 + 1)))) ∧
  ((∀ w : Word 16, (tagField w).getLsbD 0 = w.getLsbD 0 ∧ (parityField w).getLsbD 0 = w.getLsbD 1 ∧
      (∀ i < 4, (checkField 4 w).getLsbD i = w.getLsbD (i + 2)) ∧
      (∀ j < 10, (valueField 4 10 w).getLsbD j = w.getLsbD (4 + 2 + j))) ∧
    (∀ p < 16, (checkMask 16 4).getLsbD p = (decide (2 ≤ p) && decide (p ≤ 4 + 1)))) ∧
  ((∀ w : Word 64, (tagField w).getLsbD 0 = w.getLsbD 0 ∧ (parityField w).getLsbD 0 = w.getLsbD 1 ∧
      (∀ i < 6, (checkField 6 w).getLsbD i = w.getLsbD (i + 2)) ∧
      (∀ j < 56, (valueField 6 56 w).getLsbD j = w.getLsbD (6 + 2 + j))) ∧
    (∀ p < 64, (checkMask 64 6).getLsbD p = (decide (2 ≤ p) && decide (p ≤ 6 + 1)))) ∧
  checkMask 8 3 = 0x1C ∧ checkMask 16 4 = 0x003C ∧ checkMask 64 6 = 0x00000000000000FC

/-- The covering masks of A, B and C are the listed constants, cover the listed positions, and are those of the ascending order.
States R46, R47, R48. -/
def Obligations.CoveringMasksAreTheListedOnes : Prop :=
  tablesA.masks = [0xA1, 0xC1, 0xE0] ∧
  (List.range 3).map (coveringMask 8 3 (valueSyndromes 3)) = [0xA1, 0xC1, 0xE0] ∧
  (tablesA.masks.map fun m => (List.range 8).filter fun p => m.getLsbD p) =
    [[0, 5, 7],
      [0, 6, 7],
      [5, 6, 7]] ∧
  tablesB.masks = [0xAB41, 0xCD81, 0xF1C0, 0xFE00] ∧
  (List.range 4).map (coveringMask 16 4 (valueSyndromes 4)) = [0xAB41, 0xCD81, 0xF1C0, 0xFE00] ∧
  (tablesB.masks.map fun m => (List.range 16).filter fun p => m.getLsbD p) =
    [[0, 6, 8, 9, 11, 13, 15],
      [0, 7, 8, 10, 11, 14, 15],
      [6, 7, 8, 12, 13, 14, 15],
      [9, 10, 11, 12, 13, 14, 15]] ∧
  tablesC.masks = [0xAAAAAAAB5556AD01, 0xCCCCCCCD999B3601, 0xF0F0F0F1E1E3C700, 0xFF00FF01FE03F800,
    0xFFFF0001FFFC0000, 0xFFFFFFFE00000000] ∧
  (List.range 6).map (coveringMask 64 6 (valueSyndromes 6)) = [0xAAAAAAAB5556AD01, 0xCCCCCCCD999B3601, 0xF0F0F0F1E1E3C700, 0xFF00FF01FE03F800,
    0xFFFF0001FFFC0000, 0xFFFFFFFE00000000] ∧
  (tablesC.masks.map fun m => (List.range 64).filter fun p => m.getLsbD p) =
    [[0, 8, 10, 11, 13, 15, 17, 18, 20, 22, 24, 26, 28, 30, 32, 33, 35, 37, 39, 41, 43, 45, 47, 49, 51, 53, 55, 57, 59, 61, 63],
      [0, 9, 10, 12, 13, 16, 17, 19, 20, 23, 24, 27, 28, 31, 32, 34, 35, 38, 39, 42, 43, 46, 47, 50, 51, 54, 55, 58, 59, 62, 63],
      [8, 9, 10, 14, 15, 16, 17, 21, 22, 23, 24, 29, 30, 31, 32, 36, 37, 38, 39, 44, 45, 46, 47, 52, 53, 54, 55, 60, 61, 62, 63],
      [11, 12, 13, 14, 15, 16, 17, 25, 26, 27, 28, 29, 30, 31, 32, 40, 41, 42, 43, 44, 45, 46, 47, 56, 57, 58, 59, 60, 61, 62, 63],
      [18, 19, 20, 21, 22, 23, 24, 25, 26, 27, 28, 29, 30, 31, 32, 48, 49, 50, 51, 52, 53, 54, 55, 56, 57, 58, 59, 60, 61, 62, 63],
      [33, 34, 35, 36, 37, 38, 39, 40, 41, 42, 43, 44, 45, 46, 47, 48, 49, 50, 51, 52, 53, 54, 55, 56, 57, 58, 59, 60, 61, 62, 63]]

/-- The written-out Hamming indices, masks and position maps are those generated from the ascending value-syndrome order.
Rests on 30_encoding.md R41, 30_encoding.md R43, 30_encoding.md R44, 30_encoding.md R49, 30_encoding.md R50. -/
def Obligations.TablesComeFromTheAscendingOrder : Prop :=
  hammingIndicesA = (List.range 8).map (hammingIndex 3 (valueSyndromes 3)) ∧
  tablesA = Tables.ofOrder 8 3 (valueSyndromes 3) ∧
  hammingIndicesB = (List.range 16).map (hammingIndex 4 (valueSyndromes 4)) ∧
  tablesB = Tables.ofOrder 16 4 (valueSyndromes 4) ∧
  hammingIndicesC = (List.range 64).map (hammingIndex 6 (valueSyndromes 6)) ∧
  tablesC = Tables.ofOrder 64 6 (valueSyndromes 6)

/-- A value syndrome s names the position s plus the number of reserved syndromes above s.
States R42. -/
def Obligations.ValuePositionsFollowTheClosedForm : Prop :=
  (∀ s ∈ valueSyndromes 3, positionOf 8 3 (valueSyndromes 3) s = some (valuePosition 3 s) ∧
    valuePosition 3 s = s + ((List.range 3).filter fun i => decide (s < 2 ^ i)).length) ∧
  (∀ s ∈ valueSyndromes 4, positionOf 16 4 (valueSyndromes 4) s = some (valuePosition 4 s) ∧
    valuePosition 4 s = s + ((List.range 4).filter fun i => decide (s < 2 ^ i)).length) ∧
  (∀ s ∈ valueSyndromes 6, positionOf 64 6 (valueSyndromes 6) s = some (valuePosition 6 s) ∧
    valuePosition 6 s = s + ((List.range 6).filter fun i => decide (s < 2 ^ i)).length) ∧
  (∀ s ∈ [5, 6, 7], valuePosition 3 s = s) ∧
  (∀ s ∈ [5, 6, 7], valuePosition 4 s = s + 1) ∧ (∀ s ∈ List.range' 9 7, valuePosition 4 s = s) ∧
  (∀ s ∈ [5, 6, 7], valuePosition 6 s = s + 3) ∧ (∀ s ∈ List.range' 9 7, valuePosition 6 s = s + 2) ∧
  (∀ s ∈ List.range' 17 15, valuePosition 6 s = s + 1) ∧ (∀ s ∈ List.range' 33 31, valuePosition 6 s = s)

/-- No mask covers a check or parity bit, only masks 0 and 1 the tag, and each value bit is covered by its own set of at least two masks.
States R45. -/
def Obligations.CoveringMasksExcludeCheckAndParityBits : Prop :=
  ((∀ m ∈ tablesA.masks, m &&& (((1#8 <<< (3 + 1)) - 1#8) <<< 1) = 0) ∧
    (tablesA.masks.map fun m => m.getLsbD 0) = (List.range 3).map (fun i => decide (i < 2)) ∧
    (∀ p < 8, 3 + 2 ≤ p → 2 ≤ (tablesA.masks.filter fun m => m.getLsbD p).length) ∧
    (∀ p < 8, ∀ q < 8, isDataPosition 3 p = true → isDataPosition 3 q = true →
      (tablesA.masks.map fun m => m.getLsbD p) = (tablesA.masks.map fun m => m.getLsbD q) → p = q) ∧
    (∀ p < 8, isDataPosition 3 p = true → (tablesA.masks.filter fun m => m.getLsbD p).length ≠ 1)) ∧
  ((∀ m ∈ tablesB.masks, m &&& (((1#16 <<< (4 + 1)) - 1#16) <<< 1) = 0) ∧
    (tablesB.masks.map fun m => m.getLsbD 0) = (List.range 4).map (fun i => decide (i < 2)) ∧
    (∀ p < 16, 4 + 2 ≤ p → 2 ≤ (tablesB.masks.filter fun m => m.getLsbD p).length) ∧
    (∀ p < 16, ∀ q < 16, isDataPosition 4 p = true → isDataPosition 4 q = true →
      (tablesB.masks.map fun m => m.getLsbD p) = (tablesB.masks.map fun m => m.getLsbD q) → p = q) ∧
    (∀ p < 16, isDataPosition 4 p = true → (tablesB.masks.filter fun m => m.getLsbD p).length ≠ 1)) ∧
  ((∀ m ∈ tablesC.masks, m &&& (((1#64 <<< (6 + 1)) - 1#64) <<< 1) = 0) ∧
    (tablesC.masks.map fun m => m.getLsbD 0) = (List.range 6).map (fun i => decide (i < 2)) ∧
    (∀ p < 64, 6 + 2 ≤ p → 2 ≤ (tablesC.masks.filter fun m => m.getLsbD p).length) ∧
    (∀ p < 64, ∀ q < 64, isDataPosition 6 p = true → isDataPosition 6 q = true →
      (tablesC.masks.map fun m => m.getLsbD p) = (tablesC.masks.map fun m => m.getLsbD q) → p = q) ∧
    (∀ p < 64, isDataPosition 6 p = true → (tablesC.masks.filter fun m => m.getLsbD p).length ≠ 1))

/-- Under every value-syndrome order each nonzero syndrome is the Hamming index of exactly one position, the tag's is 3.
Rests on 30_encoding.md R41, 30_encoding.md R49, 92_eei_decisions.md D4. -/
def Obligations.EveryOrderGivesEachSyndromeOnePosition : Prop :=
  ∀ (v : Variant) (order : List Nat), ValidOrder v.r order →
    hammingIndex v.r order 0 = some 3 ∧ hammingIndex v.r order 1 = none ∧
    (∀ i < v.r, hammingIndex v.r order (i + 2) = some (2 ^ i)) ∧
    (∀ s, 1 ≤ s → s < 2 ^ v.r → ∃ p < v.n, hammingIndex v.r order p = some s ∧
      ∀ q < v.n, hammingIndex v.r order q = some s → q = p)

/-- The code is linear, of distance 4, corrects one flip and detects two under every value-syndrome order, for every variant.
Rests on 92_eei_decisions.md D4, 40_encoder.md R61, 41_decoder.md R75, 41_decoder.md R76, 41_decoder.md R77. -/
def Obligations.EveryOrderIsSingleCorrectingDoubleDetecting : Prop :=
  ∀ (v : Variant) (order : List Nat), ValidOrder v.r order →
    EncoderLaws (Tables.ofOrder v.n v.r order) v.vw ∧ SecDedLaws (Tables.ofOrder v.n v.r order) v.vw

/-- At power-up both output invariants hold.
Rests on 10_state.md R27, notes/assumptions/2.md. -/
def Obligations.ResetMeetsTheOutputInvariants : Prop :=
  OutputsFollowInputs State.reset ∧ OutputsAreCodewords State.reset

/-- Every step keeps the invariant that each recorded output is the function of the current inputs.
Rests on 10_state.md R27, 10_state.md R14, notes/assumptions/2.md. -/
def Obligations.StepKeepsOutputsFollowingInputs : Prop :=
  ∀ s t : State, OutputsFollowInputs s → step s = .next t → OutputsFollowInputs t

/-- Driving or releasing inputs, the channel and the latch keep each recorded output the function of the current inputs.
Rests on 10_state.md R27, 70_reset_and_hazards.md R97, notes/assumptions/2.md. -/
def Obligations.EnvironmentKeepsOutputsFollowingInputs : Prop :=
  ∀ (n r vw : Nat) (t : Tables n r) (x : Block n vw), BlockOutputsFollowInputs t x →
    (∀ value : Word vw, BlockOutputsFollowInputs t (x.driveEncValue value)) ∧
    (∀ tag : Word 1, BlockOutputsFollowInputs t (x.driveEncTag tag)) ∧
    (∀ word : Word n, BlockOutputsFollowInputs t (x.driveDecIn word)) ∧
    BlockOutputsFollowInputs t x.releaseEncoder ∧ BlockOutputsFollowInputs t x.releaseDecoder ∧
    (∀ flips : List Nat, BlockOutputsFollowInputs t (x.transmit flips)) ∧
    BlockOutputsFollowInputs t x.latchDecOut

/-- Every step keeps the invariant that each recorded output word is a valid codeword and the sentinel goes with count 2.
Rests on 41_decoder.md R74, 41_decoder.md R78, 41_decoder.md R79, 40_encoder.md R61. -/
def Obligations.StepKeepsOutputsCodewords : Prop :=
  ∀ s t : State, OutputsAreCodewords s → step s = .next t → OutputsAreCodewords t

/-- Pack, corrupt at most two bits, correct: value and tag are recovered after no flip or one, and error count 2 is reported after two.
Rests on 41_decoder.md R75, 41_decoder.md R76, 41_decoder.md R77, 41_decoder.md R79, 30_encoding.md R55, 95_test_vectors.md P1. -/
def Obligations.ChannelWithAtMostTwoFlipsIsRecoveredOrReported : Prop :=
  (∀ (s : State) (v : Word 3) (g : Word 1) (flips : List Nat), s.a.encValue = some v → s.a.encTag = some g →
    ∃ t u, exec .packA s = .next t ∧ t.a.encCw = some (packA v g) ∧
      exec .correctA (t.putA (t.a.transmit flips)) = .next u ∧
      ChannelResult 3 flips (packA v g) v g u.a) ∧
  (∀ (s : State) (v : Word 10) (g : Word 1) (flips : List Nat), s.b.encValue = some v → s.b.encTag = some g →
    ∃ t u, exec .packB s = .next t ∧ t.b.encCw = some (packB v g) ∧
      exec .correctB (t.putB (t.b.transmit flips)) = .next u ∧
      ChannelResult 4 flips (packB v g) v g u.b) ∧
  (∀ (s : State) (v : Word 56) (g : Word 1) (flips : List Nat), s.c.encValue = some v → s.c.encTag = some g →
    ∃ t u, exec .packC s = .next t ∧ t.c.encCw = some (packC v g) ∧
      exec .correctC (t.putC (t.c.transmit flips)) = .next u ∧
      ChannelResult 6 flips (packC v g) v g u.c)

/-- A PACK request with an integer value outside [0, 2^(k-1) - 1] is refused, and one within it drives exactly that value.
States R62. -/
def Obligations.OutOfRangeValuesAreRefused : Prop :=
  (∀ (v : Variant) (s : State) (value tag : Int), value < 0 ∨ 2 ^ (v.k - 1) ≤ value →
    issue (.pack v value tag) s = .refused (.operandOutOfRange (.pack v value tag))) ∧
  (∀ (s : State) (x : Word 3) (tag : Int), issue (.pack .A x.toNat tag) s =
    .next { s with a := { s.a with encValue := some x, encTag := some (tagOperand tag), encCw := some (packA x (tagOperand tag)) } }) ∧
  (∀ (s : State) (x : Word 10) (tag : Int), issue (.pack .B x.toNat tag) s =
    .next { s with b := { s.b with encValue := some x, encTag := some (tagOperand tag), encCw := some (packB x (tagOperand tag)) } }) ∧
  (∀ (s : State) (x : Word 56) (tag : Int), issue (.pack .C x.toNat tag) s =
    .next { s with c := { s.c with encValue := some x, encTag := some (tagOperand tag), encCw := some (packC x (tagOperand tag)) } })

/-- An integer tag is used by its least significant bit and is never a reason to refuse.
States R63. -/
def Obligations.OnlyTheLowTagBitCounts : Prop :=
  (∀ tag : Int, (tagOperand tag).toNat = (tag % 2).toNat) ∧
  (∀ (v : Variant) (s : State) (value tag : Int), 0 ≤ value → value < 2 ^ v.vw →
    (∃ t, issue (.pack v value tag) s = .next t) ∧
      issue (.pack v value tag) s = issue (.pack v value (tag % 2)) s) ∧
  (∀ s : State, ∃ t, issue (.pack .A 0b101 2) s = .next t ∧ t.a.encCw = some 0xAA) ∧
  (∀ s : State, ∃ t, issue (.pack .A 0b101 3) s = .next t ∧ t.a.encCw = some 0xA5)

/-- Sampled after T_SETTLE the outputs are what PACK and CORRECT give for the inputs; sampled before, one free value is used.
Rests on 70_reset_and_hazards.md R93, 70_reset_and_hazards.md R95, 70_reset_and_hazards.md R96, notes/assumptions/7.md. -/
def Obligations.SettledOutputsAreTheFunctionOfTheInputs : Prop :=
  (∀ (s : State) (v : Word 3) (g : Word 1) (elapsed : Nat), s.a.encValue = some v → s.a.encTag = some g →
    (Config.tSettle .A ≤ elapsed ∧ sampleEncCw tablesA .A s.a elapsed s = .ok (packA v g, s)) ∨
    (elapsed < Config.tSettle .A ∧ sampleEncCw tablesA .A s.a elapsed s =
      .ok (Config.unsettled 8 s.draws, { s with draws := s.draws + 1 }))) ∧
  (∀ (s : State) (y o : Word 8) (e : ErrCount) (elapsed : Nat), s.a.decIn = some y →
    correctWord tablesA y = .ok (e, o) →
    (Config.tSettle .A ≤ elapsed ∧
      sampleDecErrcnt tablesA .A s.a elapsed s = .ok (e.toBits, s) ∧
      sampleDecOut tablesA .A s.a elapsed s = .ok (o, s)) ∨
    (elapsed < Config.tSettle .A ∧
      sampleDecErrcnt tablesA .A s.a elapsed s =
        .ok (Config.unsettled 2 s.draws, { s with draws := s.draws + 1 }) ∧
      sampleDecOut tablesA .A s.a elapsed s =
        .ok (Config.unsettled 8 s.draws, { s with draws := s.draws + 1 }))) ∧
  (∀ (s : State) (v : Word 10) (g : Word 1) (elapsed : Nat), s.b.encValue = some v → s.b.encTag = some g →
    (Config.tSettle .B ≤ elapsed ∧ sampleEncCw tablesB .B s.b elapsed s = .ok (packB v g, s)) ∨
    (elapsed < Config.tSettle .B ∧ sampleEncCw tablesB .B s.b elapsed s =
      .ok (Config.unsettled 16 s.draws, { s with draws := s.draws + 1 }))) ∧
  (∀ (s : State) (y o : Word 16) (e : ErrCount) (elapsed : Nat), s.b.decIn = some y →
    correctWord tablesB y = .ok (e, o) →
    (Config.tSettle .B ≤ elapsed ∧
      sampleDecErrcnt tablesB .B s.b elapsed s = .ok (e.toBits, s) ∧
      sampleDecOut tablesB .B s.b elapsed s = .ok (o, s)) ∨
    (elapsed < Config.tSettle .B ∧
      sampleDecErrcnt tablesB .B s.b elapsed s =
        .ok (Config.unsettled 2 s.draws, { s with draws := s.draws + 1 }) ∧
      sampleDecOut tablesB .B s.b elapsed s =
        .ok (Config.unsettled 16 s.draws, { s with draws := s.draws + 1 }))) ∧
  (∀ (s : State) (v : Word 56) (g : Word 1) (elapsed : Nat), s.c.encValue = some v → s.c.encTag = some g →
    (Config.tSettle .C ≤ elapsed ∧ sampleEncCw tablesC .C s.c elapsed s = .ok (packC v g, s)) ∨
    (elapsed < Config.tSettle .C ∧ sampleEncCw tablesC .C s.c elapsed s =
      .ok (Config.unsettled 64 s.draws, { s with draws := s.draws + 1 }))) ∧
  (∀ (s : State) (y o : Word 64) (e : ErrCount) (elapsed : Nat), s.c.decIn = some y →
    correctWord tablesC y = .ok (e, o) →
    (Config.tSettle .C ≤ elapsed ∧
      sampleDecErrcnt tablesC .C s.c elapsed s = .ok (e.toBits, s) ∧
      sampleDecOut tablesC .C s.c elapsed s = .ok (o, s)) ∨
    (elapsed < Config.tSettle .C ∧
      sampleDecErrcnt tablesC .C s.c elapsed s =
        .ok (Config.unsettled 2 s.draws, { s with draws := s.draws + 1 }) ∧
      sampleDecOut tablesC .C s.c elapsed s =
        .ok (Config.unsettled 64 s.draws, { s with draws := s.draws + 1 })))

/-- Connections that feed a unit's output to its own input with no storage are refused; through storage they are accepted.
Rests on 70_reset_and_hazards.md R97, notes/assumptions/8.md. -/
def Obligations.CombinationalFeedbackIsRefused : Prop :=
  (∀ (wires : List Wire) (w : Wire) (s : State), w ∈ wires → w.sourceUnit = w.targetUnit → w.storage = false →
    connect wires s = .refused .combinationalFeedback) ∧
  (∀ (wires : List Wire) (s : State), (∀ w ∈ wires, w.storage = true) → connect wires s = .next s) ∧
  (∀ (v : Variant) (s : State),
    connect [{ source := (v, .encCw), target := (v, .decIn), storage := false }] s = .next s)
end

