-- ==== Sys2Proof/Laws/Bits.lean ====
section
/-! SUPPORT. Population count, parity and single bits: parity turns exclusive or into exclusive or (00_scope R11). -/

namespace Sys2Proof.Machine

variable {n : Nat}

@[simp] theorem popcountBelow_zero_word (i : Nat) : popcountBelow (0#n) i = 0 := by
  induction i with
  | zero => rfl
  | succ i ih => simp [popcountBelow, ih]

/-- The bits of an exclusive or, counted modulo 2. -/
theorem popcountBelow_xor_mod_two (x y : Word n) (i : Nat) :
    popcountBelow (x ^^^ y) i % 2 = (popcountBelow x i + popcountBelow y i) % 2 := by
  induction i with
  | zero => rfl
  | succ i ih =>
    have hbit : ((x ^^^ y).getLsbD i).toNat % 2 = ((x.getLsbD i).toNat + (y.getLsbD i).toNat) % 2 := by
      rw [BitVec.getLsbD_xor]
      cases x.getLsbD i <;> cases y.getLsbD i <;> rfl
    simp only [popcountBelow]
    omega

theorem parity_eq_decide (w : Word n) : parity w = decide (popcount w % 2 = 1) := by
  simp [parity, beq_eq_decide]

@[simp] theorem parity_zero : parity (0#n) = false := by
  simp [parity, popcount]

/-- 00_scope R11: `parity(a ⊕ b) = parity(a) ⊕ parity(b)`. -/
theorem parity_xor (x y : Word n) : parity (x ^^^ y) = (parity x ^^ parity y) := by
  have h := popcountBelow_xor_mod_two x y n
  simp only [parity, popcount, beq_eq_decide] at *
  rcases Nat.mod_two_eq_zero_or_one (popcountBelow x n) with hx | hx <;>
    rcases Nat.mod_two_eq_zero_or_one (popcountBelow y n) with hy | hy <;>
      simp [h, Nat.add_mod, hx, hy]

/-- A single 1 at position `p`, bit by bit. -/
theorem getLsbD_one_shiftLeft (p i : Nat) : (1#n <<< p).getLsbD i = (decide (i < n) && decide (i = p)) := by
  by_cases hi : i < n
  · by_cases hp : i = p
    · subst hp
      simp [hi]
    · have : ¬ (i - p = 0 ∧ ¬ i < p) := by omega
      simp only [BitVec.getLsbD_shiftLeft, hi, decide_true, Bool.true_and, BitVec.getLsbD_one, hp, decide_false]
      by_cases hlt : i < p
      · simp [hlt]
      · have h0 : i - p ≠ 0 := by omega
        simp [h0]
  · simp [hi]

/-- The 1 bits of a single bit under a mask: the mask's own bit at that position. -/
theorem popcountBelow_one_shiftLeft_and (m : Word n) (p i : Nat) (hi : i ≤ n) :
    popcountBelow (1#n <<< p &&& m) i = if p < i then (m.getLsbD p).toNat else 0 := by
  induction i with
  | zero => rfl
  | succ i ih =>
    have hin : i < n := by omega
    simp only [popcountBelow, BitVec.getLsbD_and, getLsbD_one_shiftLeft, hin, decide_true, Bool.true_and,
      ih (by omega)]
    by_cases hp : i = p
    · subst hp; simp
    · by_cases hlt : p < i
      · simp [hp, hlt, show p < i + 1 by omega]
      · simp [hp, hlt, show ¬ p < i + 1 by omega]

/-- The parity of a single bit under a mask is the mask's bit there. -/
theorem parity_one_shiftLeft_and (m : Word n) {p : Nat} (hp : p < n) : parity (1#n <<< p &&& m) = m.getLsbD p := by
  rw [parity, popcount, popcountBelow_one_shiftLeft_and m p n (Nat.le_refl n), if_pos hp]
  cases m.getLsbD p <;> rfl

/-- A single bit is odd. -/
theorem parity_one_shiftLeft {p : Nat} (hp : p < n) : parity (1#n <<< p) = true := by
  have h := parity_one_shiftLeft_and (BitVec.allOnes n) hp
  rw [BitVec.and_allOnes] at h
  rw [h, BitVec.getLsbD_allOnes]
  simpa using hp

/-- A flip inside the word changes the parity. -/
theorem parity_flipBit (w : Word n) {p : Nat} (hp : p < n) : parity (flipBit w p) = !parity w := by
  rw [flipBit, parity_xor, parity_one_shiftLeft hp, Bool.xor_true]

/-- Flipping the same bit twice gives the word back. -/
@[simp] theorem flipBit_flipBit (w : Word n) (p : Nat) : flipBit (flipBit w p) p = w := by
  simp [flipBit]

/-- A bit placed at position `p`, bit by bit. -/
theorem getLsbD_bitAt (bit : Bool) (p i : Nat) :
    (bitAt n bit p).getLsbD i = (decide (i < n) && (decide (i = p) && bit)) := by
  cases bit with
  | false => simp [bitAt]
  | true =>
    have h : bitAt n true p = 1#n <<< p := by
      simp only [bitAt, BitVec.ofBool_true]
      congr 1
      apply BitVec.eq_of_toNat_eq
      simp
    rw [h, getLsbD_one_shiftLeft, Bool.and_true]

@[simp] theorem bitAt_false (p : Nat) : bitAt n false p = 0#n := by
  simp [bitAt]

/-- Parity under a mask is linear (40_encoder R64). -/
theorem parity_xor_and (x y m : Word n) : parity ((x ^^^ y) &&& m) = (parity (x &&& m) ^^ parity (y &&& m)) := by
  have h : (x ^^^ y) &&& m = (x &&& m) ^^^ (y &&& m) := by
    apply BitVec.eq_of_getLsbD_eq
    intro i _
    simp only [BitVec.getLsbD_and, BitVec.getLsbD_xor]
    cases x.getLsbD i <;> cases y.getLsbD i <;> cases m.getLsbD i <;> rfl
  rw [h, parity_xor]

/-- The check-bit subroutine bit by bit: position `p` holds the parity under the mask of index `p - 2`, counted from the
first mask's index `i`, and every other bit is 0. -/
theorem getLsbD_checkBitsFrom (x : Word n) (masks : List (Word n)) (i p : Nat) :
    (checkBitsFrom x i masks).getLsbD p =
      (decide (p < n) && (decide (i + 2 ≤ p) && ((masks[p - (i + 2)]?).map fun m => parity (x &&& m)).getD false)) := by
  induction masks generalizing i with
  | nil => simp [checkBitsFrom]
  | cons m ms ih =>
    simp only [checkBitsFrom, BitVec.getLsbD_or, getLsbD_bitAt, ih]
    by_cases hp : p < n
    · by_cases hhere : p = i + 2
      · subst hhere
        simp [hp]
      · by_cases habove : i + 2 ≤ p
        · have hshift : p - (i + 2) = (p - (i + 1 + 2)) + 1 := by omega
          have hnext : i + 1 + 2 ≤ p := by omega
          simp [hp, hhere, habove, hnext, hshift]
        · have hnext : ¬ i + 1 + 2 ≤ p := by omega
          simp [hhere, habove, hnext]
    · simp [hp]

end Sys2Proof.Machine
end

