-- ==== Sys2Proof/Laws/State.lean ====
section
/-! SUPPORT. What each update of State and of a block instance does to each field, so that no later proof unfolds one. -/

namespace Sys2Proof.Machine

@[simp] theorem State.putA_a (s : State) (x : Block 8 3) : (s.putA x).a = x := rfl
@[simp] theorem State.putA_b (s : State) (x : Block 8 3) : (s.putA x).b = s.b := rfl
@[simp] theorem State.putA_c (s : State) (x : Block 8 3) : (s.putA x).c = s.c := rfl
@[simp] theorem State.putA_request (s : State) (x : Block 8 3) : (s.putA x).request = s.request := rfl
@[simp] theorem State.putA_stops (s : State) (x : Block 8 3) : (s.putA x).stops = s.stops := rfl
@[simp] theorem State.putA_draws (s : State) (x : Block 8 3) : (s.putA x).draws = s.draws := rfl

@[simp] theorem State.putB_a (s : State) (x : Block 16 10) : (s.putB x).a = s.a := rfl
@[simp] theorem State.putB_b (s : State) (x : Block 16 10) : (s.putB x).b = x := rfl
@[simp] theorem State.putB_c (s : State) (x : Block 16 10) : (s.putB x).c = s.c := rfl
@[simp] theorem State.putB_request (s : State) (x : Block 16 10) : (s.putB x).request = s.request := rfl
@[simp] theorem State.putB_stops (s : State) (x : Block 16 10) : (s.putB x).stops = s.stops := rfl
@[simp] theorem State.putB_draws (s : State) (x : Block 16 10) : (s.putB x).draws = s.draws := rfl

@[simp] theorem State.putC_a (s : State) (x : Block 64 56) : (s.putC x).a = s.a := rfl
@[simp] theorem State.putC_b (s : State) (x : Block 64 56) : (s.putC x).b = s.b := rfl
@[simp] theorem State.putC_c (s : State) (x : Block 64 56) : (s.putC x).c = x := rfl
@[simp] theorem State.putC_request (s : State) (x : Block 64 56) : (s.putC x).request = s.request := rfl
@[simp] theorem State.putC_stops (s : State) (x : Block 64 56) : (s.putC x).stops = s.stops := rfl
@[simp] theorem State.putC_draws (s : State) (x : Block 64 56) : (s.putC x).draws = s.draws := rfl

@[simp] theorem State.putRequest_a (s : State) (x : List Byte) : (s.putRequest x).a = s.a := rfl
@[simp] theorem State.putRequest_b (s : State) (x : List Byte) : (s.putRequest x).b = s.b := rfl
@[simp] theorem State.putRequest_c (s : State) (x : List Byte) : (s.putRequest x).c = s.c := rfl
@[simp] theorem State.putRequest_request (s : State) (x : List Byte) : (s.putRequest x).request = x := rfl
@[simp] theorem State.putRequest_stops (s : State) (x : List Byte) : (s.putRequest x).stops = s.stops := rfl
@[simp] theorem State.putRequest_draws (s : State) (x : List Byte) : (s.putRequest x).draws = s.draws := rfl

@[simp] theorem State.putStops_a (s : State) (x : List Stop) : (s.putStops x).a = s.a := rfl
@[simp] theorem State.putStops_b (s : State) (x : List Stop) : (s.putStops x).b = s.b := rfl
@[simp] theorem State.putStops_c (s : State) (x : List Stop) : (s.putStops x).c = s.c := rfl
@[simp] theorem State.putStops_request (s : State) (x : List Stop) : (s.putStops x).request = s.request := rfl
@[simp] theorem State.putStops_stops (s : State) (x : List Stop) : (s.putStops x).stops = x := rfl
@[simp] theorem State.putStops_draws (s : State) (x : List Stop) : (s.putStops x).draws = s.draws := rfl

@[simp] theorem beginStep_a (s : State) : (beginStep s).a = s.a := rfl
@[simp] theorem beginStep_b (s : State) : (beginStep s).b = s.b := rfl
@[simp] theorem beginStep_c (s : State) : (beginStep s).c = s.c := rfl
@[simp] theorem beginStep_request (s : State) : (beginStep s).request = s.request := rfl
@[simp] theorem beginStep_stops (s : State) : (beginStep s).stops = s.stops.filter Stop.isFinal := rfl
@[simp] theorem beginStep_draws (s : State) : (beginStep s).draws = s.draws := rfl

@[simp] theorem State.putA_putA (s : State) (x y : Block 8 3) : (s.putA x).putA y = s.putA y := rfl
@[simp] theorem State.putB_putB (s : State) (x y : Block 16 10) : (s.putB x).putB y = s.putB y := rfl
@[simp] theorem State.putC_putC (s : State) (x y : Block 64 56) : (s.putC x).putC y = s.putC y := rfl

variable {n vw : Nat}

@[simp] theorem Block.driveEncValue_encValue (x : Block n vw) (value : Word vw) :
    (x.driveEncValue value).encValue = some value := rfl
@[simp] theorem Block.driveEncValue_encTag (x : Block n vw) (value : Word vw) :
    (x.driveEncValue value).encTag = x.encTag := rfl
@[simp] theorem Block.driveEncValue_decIn (x : Block n vw) (value : Word vw) :
    (x.driveEncValue value).decIn = x.decIn := rfl
@[simp] theorem Block.driveEncValue_encCw (x : Block n vw) (value : Word vw) :
    (x.driveEncValue value).encCw = none := rfl
@[simp] theorem Block.driveEncValue_decErrcnt (x : Block n vw) (value : Word vw) :
    (x.driveEncValue value).decErrcnt = x.decErrcnt := rfl
@[simp] theorem Block.driveEncValue_decOut (x : Block n vw) (value : Word vw) :
    (x.driveEncValue value).decOut = x.decOut := rfl

@[simp] theorem Block.driveEncTag_encValue (x : Block n vw) (tag : Word 1) :
    (x.driveEncTag tag).encValue = x.encValue := rfl
@[simp] theorem Block.driveEncTag_encTag (x : Block n vw) (tag : Word 1) :
    (x.driveEncTag tag).encTag = some tag := rfl
@[simp] theorem Block.driveEncTag_decIn (x : Block n vw) (tag : Word 1) :
    (x.driveEncTag tag).decIn = x.decIn := rfl
@[simp] theorem Block.driveEncTag_encCw (x : Block n vw) (tag : Word 1) :
    (x.driveEncTag tag).encCw = none := rfl
@[simp] theorem Block.driveEncTag_decErrcnt (x : Block n vw) (tag : Word 1) :
    (x.driveEncTag tag).decErrcnt = x.decErrcnt := rfl
@[simp] theorem Block.driveEncTag_decOut (x : Block n vw) (tag : Word 1) :
    (x.driveEncTag tag).decOut = x.decOut := rfl

@[simp] theorem Block.driveDecIn_encValue (x : Block n vw) (word : Word n) :
    (x.driveDecIn word).encValue = x.encValue := rfl
@[simp] theorem Block.driveDecIn_encTag (x : Block n vw) (word : Word n) :
    (x.driveDecIn word).encTag = x.encTag := rfl
@[simp] theorem Block.driveDecIn_decIn (x : Block n vw) (word : Word n) :
    (x.driveDecIn word).decIn = some word := rfl
@[simp] theorem Block.driveDecIn_encCw (x : Block n vw) (word : Word n) :
    (x.driveDecIn word).encCw = x.encCw := rfl
@[simp] theorem Block.driveDecIn_decErrcnt (x : Block n vw) (word : Word n) :
    (x.driveDecIn word).decErrcnt = none := rfl
@[simp] theorem Block.driveDecIn_decOut (x : Block n vw) (word : Word n) :
    (x.driveDecIn word).decOut = none := rfl

@[simp] theorem Block.driveEncoder_encValue (x : Block n vw) (value : Word vw) (tag : Word 1) :
    (x.driveEncoder value tag).encValue = some value := rfl
@[simp] theorem Block.driveEncoder_encTag (x : Block n vw) (value : Word vw) (tag : Word 1) :
    (x.driveEncoder value tag).encTag = some tag := rfl
@[simp] theorem Block.driveEncoder_decIn (x : Block n vw) (value : Word vw) (tag : Word 1) :
    (x.driveEncoder value tag).decIn = x.decIn := rfl
@[simp] theorem Block.driveEncoder_encCw (x : Block n vw) (value : Word vw) (tag : Word 1) :
    (x.driveEncoder value tag).encCw = none := rfl
@[simp] theorem Block.driveEncoder_decErrcnt (x : Block n vw) (value : Word vw) (tag : Word 1) :
    (x.driveEncoder value tag).decErrcnt = x.decErrcnt := rfl
@[simp] theorem Block.driveEncoder_decOut (x : Block n vw) (value : Word vw) (tag : Word 1) :
    (x.driveEncoder value tag).decOut = x.decOut := rfl

@[simp] theorem Block.releaseEncoder_encValue (x : Block n vw) :
    (x.releaseEncoder).encValue = none := rfl
@[simp] theorem Block.releaseEncoder_encTag (x : Block n vw) :
    (x.releaseEncoder).encTag = none := rfl
@[simp] theorem Block.releaseEncoder_decIn (x : Block n vw) :
    (x.releaseEncoder).decIn = x.decIn := rfl
@[simp] theorem Block.releaseEncoder_encCw (x : Block n vw) :
    (x.releaseEncoder).encCw = none := rfl
@[simp] theorem Block.releaseEncoder_decErrcnt (x : Block n vw) :
    (x.releaseEncoder).decErrcnt = x.decErrcnt := rfl
@[simp] theorem Block.releaseEncoder_decOut (x : Block n vw) :
    (x.releaseEncoder).decOut = x.decOut := rfl

@[simp] theorem Block.releaseDecoder_encValue (x : Block n vw) :
    (x.releaseDecoder).encValue = x.encValue := rfl
@[simp] theorem Block.releaseDecoder_encTag (x : Block n vw) :
    (x.releaseDecoder).encTag = x.encTag := rfl
@[simp] theorem Block.releaseDecoder_decIn (x : Block n vw) :
    (x.releaseDecoder).decIn = none := rfl
@[simp] theorem Block.releaseDecoder_encCw (x : Block n vw) :
    (x.releaseDecoder).encCw = x.encCw := rfl
@[simp] theorem Block.releaseDecoder_decErrcnt (x : Block n vw) :
    (x.releaseDecoder).decErrcnt = none := rfl
@[simp] theorem Block.releaseDecoder_decOut (x : Block n vw) :
    (x.releaseDecoder).decOut = none := rfl

@[simp] theorem Block.recordEncoder_encValue (x : Block n vw) (word : Word n) :
    (x.recordEncoder word).encValue = x.encValue := rfl
@[simp] theorem Block.recordEncoder_encTag (x : Block n vw) (word : Word n) :
    (x.recordEncoder word).encTag = x.encTag := rfl
@[simp] theorem Block.recordEncoder_decIn (x : Block n vw) (word : Word n) :
    (x.recordEncoder word).decIn = x.decIn := rfl
@[simp] theorem Block.recordEncoder_encCw (x : Block n vw) (word : Word n) :
    (x.recordEncoder word).encCw = some word := rfl
@[simp] theorem Block.recordEncoder_decErrcnt (x : Block n vw) (word : Word n) :
    (x.recordEncoder word).decErrcnt = x.decErrcnt := rfl
@[simp] theorem Block.recordEncoder_decOut (x : Block n vw) (word : Word n) :
    (x.recordEncoder word).decOut = x.decOut := rfl

@[simp] theorem Block.recordDecoder_encValue (x : Block n vw) (count : ErrCount) (word : Word n) :
    (x.recordDecoder count word).encValue = x.encValue := rfl
@[simp] theorem Block.recordDecoder_encTag (x : Block n vw) (count : ErrCount) (word : Word n) :
    (x.recordDecoder count word).encTag = x.encTag := rfl
@[simp] theorem Block.recordDecoder_decIn (x : Block n vw) (count : ErrCount) (word : Word n) :
    (x.recordDecoder count word).decIn = x.decIn := rfl
@[simp] theorem Block.recordDecoder_encCw (x : Block n vw) (count : ErrCount) (word : Word n) :
    (x.recordDecoder count word).encCw = x.encCw := rfl
@[simp] theorem Block.recordDecoder_decErrcnt (x : Block n vw) (count : ErrCount) (word : Word n) :
    (x.recordDecoder count word).decErrcnt = some count := rfl
@[simp] theorem Block.recordDecoder_decOut (x : Block n vw) (count : ErrCount) (word : Word n) :
    (x.recordDecoder count word).decOut = some word := rfl

@[simp] theorem Block.undriven_encValue : (Block.undriven n vw).encValue = none := rfl
@[simp] theorem Block.undriven_encTag : (Block.undriven n vw).encTag = none := rfl
@[simp] theorem Block.undriven_decIn : (Block.undriven n vw).decIn = none := rfl
@[simp] theorem Block.undriven_encCw : (Block.undriven n vw).encCw = none := rfl
@[simp] theorem Block.undriven_decErrcnt : (Block.undriven n vw).decErrcnt = none := rfl
@[simp] theorem Block.undriven_decOut : (Block.undriven n vw).decOut = none := rfl

end Sys2Proof.Machine
end

