-- ==== Sys2Proof/Laws/Ops.lean ====
section
/-! SUPPORT. For each shared operation, once, everything it can do: when reading the inputs succeeds, what one PACK and one
CORRECT do to a block instance, what each operation can answer, and what a step is made of. -/

namespace Sys2Proof.Machine

variable {n r vw : Nat}

/-- Reading the encoder's inputs succeeds exactly when both are driven. -/
theorem readEncoder_ok_iff (v : Variant) (b : Block n vw) (value : Word vw) (tag : Word 1) :
    b.readEncoder v = .ok (value, tag) ↔ b.encValue = some value ∧ b.encTag = some tag := by
  unfold Block.readEncoder
  cases b.encValue <;> cases b.encTag <;> simp

/-- Reading the encoder's inputs is stuck exactly on the first that is not driven. -/
theorem readEncoder_error_iff (v : Variant) (b : Block n vw) (f : Fault) :
    b.readEncoder v = .error f ↔
      (b.encValue = none ∧ f = .inputNotDriven v .encValue) ∨
      (b.encValue.isSome ∧ b.encTag = none ∧ f = .inputNotDriven v .encTag) := by
  unfold Block.readEncoder
  cases b.encValue <;> cases b.encTag <;> simp [eq_comm]

/-- Reading the decoder's input succeeds exactly when it is driven. -/
theorem readDecoder_ok_iff (v : Variant) (b : Block n vw) (word : Word n) :
    b.readDecoder v = .ok word ↔ b.decIn = some word := by
  unfold Block.readDecoder
  cases b.decIn <;> simp

/-- Reading the decoder's input is stuck exactly when it is not driven. -/
theorem readDecoder_error_iff (v : Variant) (b : Block n vw) (f : Fault) :
    b.readDecoder v = .error f ↔ b.decIn = none ∧ f = .inputNotDriven v .decIn := by
  unfold Block.readDecoder
  cases b.decIn <;> simp [eq_comm]

/-- One PACK that completes drives the packed word of the two inputs and nothing else. -/
theorem runPack_ok_iff (t : Tables n r) (v : Variant) (b x : Block n vw) :
    runPack t v b = .ok x ↔
      ∃ value tag, b.encValue = some value ∧ b.encTag = some tag ∧ x = b.recordEncoder (packWord t value tag) := by
  unfold runPack Block.readEncoder
  cases b.encValue <;> cases b.encTag <;> simp [eq_comm]

/-- One CORRECT that completes drives the answer for the input and nothing else. -/
theorem runCorrect_ok_iff (t : Tables n r) (v : Variant) (b x : Block n vw) :
    runCorrect t v b = .ok x ↔
      ∃ y count word, b.decIn = some y ∧ correctWord t y = .ok (count, word) ∧ x = b.recordDecoder count word := by
  unfold runCorrect Block.readDecoder
  cases b.decIn with
  | none => simp
  | some y =>
    cases hc : correctWord t y with
    | error syn =>
      simp only [hc, reduceCtorEq, false_iff]
      rintro ⟨y', count, word, hy, hc', _⟩
      cases hy
      rw [hc] at hc'
      cases hc'
    | ok answer =>
      obtain ⟨count, word⟩ := answer
      simp only [hc, Except.ok.injEq]
      constructor
      · rintro rfl
        exact ⟨y, count, word, rfl, hc, rfl⟩
      · rintro ⟨y', count', word', hy, hc', rfl⟩
        cases hy
        rw [hc] at hc'
        cases hc'
        rfl

theorem decisionRow_noError {syn : Word r} (h : syn = 0) : decisionRow false syn = .noError := by
  simp only [decisionRow, h, if_true, Bool.false_eq_true, if_false]

theorem decisionRow_doubleError {syn : Word r} (h : syn ≠ 0) : decisionRow false syn = .doubleError := by
  simp only [decisionRow, h, Bool.false_eq_true, if_false]

theorem decisionRow_parityBit {syn : Word r} (h : syn = 0) : decisionRow true syn = .parityBit := by
  simp only [decisionRow, h, if_true]

theorem decisionRow_located {syn : Word r} (h : syn ≠ 0) : decisionRow true syn = .located := by
  simp only [decisionRow, h, if_true, if_false]

/-- What CORRECT can answer, row by row of the decision table, with the condition of each row. -/
theorem correctWord_cases (t : Tables n r) (y : Word n) :
    (parity y = false ∧ syndrome t y = 0 ∧ correctWord t y = .ok (.zero, y)) ∨
    (parity y = false ∧ syndrome t y ≠ 0 ∧ correctWord t y = .ok (.two, 0)) ∨
    (parity y = true ∧ syndrome t y = 0 ∧ correctWord t y = .ok (.one, flipBit y Config.posPar)) ∨
    (parity y = true ∧ syndrome t y ≠ 0 ∧
      ((∃ p, errorPosition t (syndrome t y) = some p ∧ correctWord t y = .ok (.one, flipBit y p)) ∨
        (errorPosition t (syndrome t y) = none ∧ correctWord t y = .error (syndrome t y)))) := by
  by_cases hs : syndrome t y = 0 <;> cases hp : parity y
  · exact .inl ⟨rfl, hs, by simp only [correctWord, hp, decisionRow_noError hs, DecisionRow.errCount]⟩
  · exact .inr (.inr (.inl ⟨rfl, hs, by simp only [correctWord, hp, decisionRow_parityBit hs, DecisionRow.errCount]⟩))
  · exact .inr (.inl ⟨rfl, hs, by simp only [correctWord, hp, decisionRow_doubleError hs, DecisionRow.errCount]⟩)
  · refine .inr (.inr (.inr ⟨rfl, hs, ?_⟩))
    cases he : errorPosition t (syndrome t y) with
    | none => exact .inr ⟨rfl, by simp only [correctWord, hp, decisionRow_located hs, he]⟩
    | some p => exact .inl ⟨p, rfl, by simp only [correctWord, hp, decisionRow_located hs, he, DecisionRow.errCount]⟩

/-- A finished operation answers a next state exactly when its result is one. -/
theorem finish_next_iff {β : Type} (result : Except Fault β) (put : β → State) (s : State) :
    finish result put = .next s ↔ ∃ x, result = .ok x ∧ s = put x := by
  cases result <;> simp [finish, eq_comm]

/-- A finished operation never refuses. -/
theorem finish_ne_refused {β : Type} (result : Except Fault β) (put : β → State) (q : Refusal) :
    finish result put ≠ .refused q := by
  cases result <;> simp [finish]

/-- PACK.A completes exactly with both its inputs driven, and then drives ENC_CW alone. -/
theorem exec_packA_next_iff (s t : State) :
    exec .packA s = .next t ↔
      ∃ value tag, s.a.encValue = some value ∧ s.a.encTag = some tag ∧
        t = s.putA (s.a.recordEncoder (packWord tablesA value tag)) := by
  simp only [exec, execPackA, finish_next_iff, runPack_ok_iff]
  exact ⟨fun ⟨_, ⟨v, g, hv, hg, rfl⟩, ht⟩ => ⟨v, g, hv, hg, ht⟩, fun ⟨v, g, hv, hg, ht⟩ => ⟨_, ⟨v, g, hv, hg, rfl⟩, ht⟩⟩

/-- PACK.B completes exactly with both its inputs driven, and then drives ENC_CW alone. -/
theorem exec_packB_next_iff (s t : State) :
    exec .packB s = .next t ↔
      ∃ value tag, s.b.encValue = some value ∧ s.b.encTag = some tag ∧
        t = s.putB (s.b.recordEncoder (packWord tablesB value tag)) := by
  simp only [exec, execPackB, finish_next_iff, runPack_ok_iff]
  exact ⟨fun ⟨_, ⟨v, g, hv, hg, rfl⟩, ht⟩ => ⟨v, g, hv, hg, ht⟩, fun ⟨v, g, hv, hg, ht⟩ => ⟨_, ⟨v, g, hv, hg, rfl⟩, ht⟩⟩

/-- PACK.C completes exactly with both its inputs driven, and then drives ENC_CW alone. -/
theorem exec_packC_next_iff (s t : State) :
    exec .packC s = .next t ↔
      ∃ value tag, s.c.encValue = some value ∧ s.c.encTag = some tag ∧
        t = s.putC (s.c.recordEncoder (packWord tablesC value tag)) := by
  simp only [exec, execPackC, finish_next_iff, runPack_ok_iff]
  exact ⟨fun ⟨_, ⟨v, g, hv, hg, rfl⟩, ht⟩ => ⟨v, g, hv, hg, ht⟩, fun ⟨v, g, hv, hg, ht⟩ => ⟨_, ⟨v, g, hv, hg, rfl⟩, ht⟩⟩

/-- CORRECT.A completes exactly with its input driven and answered, and then drives its two outputs alone. -/
theorem exec_correctA_next_iff (s t : State) :
    exec .correctA s = .next t ↔
      ∃ y count word, s.a.decIn = some y ∧ correctWord tablesA y = .ok (count, word) ∧
        t = s.putA (s.a.recordDecoder count word) := by
  simp only [exec, execCorrectA, finish_next_iff, runCorrect_ok_iff]
  exact ⟨fun ⟨_, ⟨y, e, o, hy, hc, rfl⟩, ht⟩ => ⟨y, e, o, hy, hc, ht⟩, fun ⟨y, e, o, hy, hc, ht⟩ => ⟨_, ⟨y, e, o, hy, hc, rfl⟩, ht⟩⟩

/-- CORRECT.B completes exactly with its input driven and answered, and then drives its two outputs alone. -/
theorem exec_correctB_next_iff (s t : State) :
    exec .correctB s = .next t ↔
      ∃ y count word, s.b.decIn = some y ∧ correctWord tablesB y = .ok (count, word) ∧
        t = s.putB (s.b.recordDecoder count word) := by
  simp only [exec, execCorrectB, finish_next_iff, runCorrect_ok_iff]
  exact ⟨fun ⟨_, ⟨y, e, o, hy, hc, rfl⟩, ht⟩ => ⟨y, e, o, hy, hc, ht⟩, fun ⟨y, e, o, hy, hc, ht⟩ => ⟨_, ⟨y, e, o, hy, hc, rfl⟩, ht⟩⟩

/-- CORRECT.C completes exactly with its input driven and answered, and then drives its two outputs alone. -/
theorem exec_correctC_next_iff (s t : State) :
    exec .correctC s = .next t ↔
      ∃ y count word, s.c.decIn = some y ∧ correctWord tablesC y = .ok (count, word) ∧
        t = s.putC (s.c.recordDecoder count word) := by
  simp only [exec, execCorrectC, finish_next_iff, runCorrect_ok_iff]
  exact ⟨fun ⟨_, ⟨y, e, o, hy, hc, rfl⟩, ht⟩ => ⟨y, e, o, hy, hc, ht⟩, fun ⟨y, e, o, hy, hc, ht⟩ => ⟨_, ⟨y, e, o, hy, hc, rfl⟩, ht⟩⟩

/-- Inserting a byte adds it and nothing else. -/
theorem mem_insertByte (x byte : Byte) (bytes : List Byte) : x ∈ insertByte byte bytes ↔ x = byte ∨ x ∈ bytes := by
  induction bytes with
  | nil => simp [insertByte]
  | cons b bs ih =>
    simp only [insertByte]
    split
    · simp
    · split
      · next hb => subst hb; simp
      · simp only [List.mem_cons, ih]
        tauto

/-- What is requested is what is listed. -/
@[simp] theorem mem_requestedBytes (x : Byte) (bytes : List Byte) : x ∈ requestedBytes bytes ↔ x ∈ bytes := by
  induction bytes with
  | nil => rfl
  | cons b bs ih => simp [requestedBytes, mem_insertByte, ih]

/-- Putting stops on record changes nothing but the record. -/
theorem recordStops_eq_putStops (stops : List Stop) (s : State) :
    ∃ stops', recordStops stops s = s.putStops stops' := by
  induction stops generalizing s with
  | nil => exact ⟨s.stops, rfl⟩
  | cons stop stops ih =>
    simp only [recordStops, recordStop]
    split
    · exact ih s
    · obtain ⟨stops', h⟩ := ih (s.putStops (s.stops ++ [stop]))
      exact ⟨stops', h⟩

/-- What one of several requested bytes does: its operation's own step, or nothing but a change of the record. -/
theorem takeAnswer_cases (byte : Byte) (s : State) :
    (∃ i t, decode byte = .ok i ∧ exec i s = .next t ∧ takeAnswer byte s = t) ∨
    ∃ stops, takeAnswer byte s = s.putStops stops := by
  unfold takeAnswer answer
  cases hd : decode byte with
  | error e => exact .inr (recordStops_eq_putStops [.byRefusal (refusalOf e)] s)
  | ok i =>
    cases hx : exec i s with
    | next t => exact .inl ⟨i, t, rfl, hx, by simp [hx]⟩
    | fault f => exact .inr (by simpa [hx] using recordStops_eq_putStops f.stops s)
    | refused q => exact .inr (by simp only [hx]; exact recordStops_eq_putStops [.byRefusal q] s)

/-- Evaluating several requested bytes keeps whatever each operation and the record keep. -/
theorem takeAnswers_keeps {P : State → Prop} (hexec : ∀ i s t, P s → exec i s = .next t → P t)
    (hrecord : ∀ s stops, P s → P (s.putStops stops)) (bytes : List Byte) {s : State} (hs : P s) :
    P (takeAnswers bytes s) := by
  induction bytes generalizing s with
  | nil => exact hs
  | cons b bs ih =>
    apply ih
    obtain ⟨i, t, -, hx, ht⟩ | ⟨stops, ht⟩ := takeAnswer_cases b s
    · exact ht ▸ hexec i s t hs hx
    · exact ht ▸ hrecord s stops hs

/-- An answer that is a next state is that of an operation. -/
theorem answer_next_iff (byte : Byte) (s t : State) :
    answer byte s = .next t ↔ ∃ i, decode byte = .ok i ∧ exec i s = .next t := by
  unfold answer
  cases decode byte <;> simp

/-- When several requested bytes complete nothing, the step answers no next state. -/
theorem noneCompletes_ne_next (bytes : List Byte) (s t : State) : noneCompletes bytes s ≠ .next t := by
  unfold noneCompletes
  split <;> simp

/-- A step that answers a next state did nothing, or was one operation, or evaluated several requested bytes. -/
theorem step_next_cases {s t : State} (h : step s = .next t) :
    t = beginStep s ∨
    (∃ b ∈ s.request, ∃ i, decode b = .ok i ∧ exec i (beginStep s) = .next t) ∨
    t = takeAnswers (requestedBytes s.request) (beginStep s) := by
  unfold step runRequest at h
  split at h
  · exact .inl (Host.Outcome.next.inj h).symm
  · next b hb =>
    obtain ⟨i, hi, hx⟩ := (answer_next_iff b _ _).mp h
    exact .inr (.inl ⟨b, (mem_requestedBytes b s.request).mp (by simp [hb]), i, hi, hx⟩)
  · next b b' bs hb =>
    split at h
    · exact .inr (.inr (by rw [hb]; exact (Host.Outcome.next.inj h).symm))
    · exact absurd h (noneCompletes_ne_next _ _ _)

/-- A step keeps whatever each operation and the record of stops keep: the induction over a request, done once. -/
theorem step_keeps {P : State → Prop} (hexec : ∀ i s t, P s → exec i s = .next t → P t)
    (hrecord : ∀ s stops, P s → P (s.putStops stops)) {s t : State} (hs : P s) (h : step s = .next t) : P t := by
  have hbegin : P (beginStep s) := hrecord s _ hs
  obtain rfl | ⟨-, -, i, -, hx⟩ | rfl := step_next_cases h
  · exact hbegin
  · exact hexec i _ t hbegin hx
  · exact takeAnswers_keeps hexec hrecord _ hbegin

end Sys2Proof.Machine
end

