-- ==== Sys2Proof/Laws/Environment.lean ====
section
/-! SUPPORT. What the environment's actions do: integer operands, sampling, the channel and the latch. -/

namespace Sys2Proof.Machine

variable {n r vw : Nat}

/-- An integer fits a port exactly when it is between 0 and the port's largest value (40_encoder R62). -/
theorem fitsPort_eq_true_iff (width : Nat) (x : Int) : fitsPort width x = true ↔ 0 ≤ x ∧ x < 2 ^ width := by
  simp only [fitsPort, Bool.and_eq_true, decide_eq_true_eq]

/-- An integer that fits is driven as it is. -/
theorem portOperand_of_fits {width : Nat} {x : Int} (h0 : 0 ≤ x) (h : x < 2 ^ width) :
    portOperand width x = some (BitVec.ofInt width x) := by
  rw [portOperand, if_pos ((fitsPort_eq_true_iff width x).mpr ⟨h0, h⟩)]

/-- An integer that does not fit is no operand. -/
theorem portOperand_of_not_fits {width : Nat} {x : Int} (h : x < 0 ∨ 2 ^ width ≤ x) : portOperand width x = none := by
  rw [portOperand, if_neg]
  intro hf
  obtain ⟨h0, hlt⟩ := (fitsPort_eq_true_iff width x).mp hf
  rcases h with h | h
  · exact absurd h0 (not_le.mpr h)
  · exact absurd hlt (not_lt.mpr h)

/-- A port value, as an integer, is driven as itself. -/
theorem portOperand_toNat {width : Nat} (x : Word width) : portOperand width (x.toNat : Int) = some x := by
  rw [portOperand_of_fits (Int.natCast_nonneg _) (by exact_mod_cast x.isLt), BitVec.ofInt_natCast, BitVec.ofNat_toNat,
    BitVec.setWidth_eq]

@[simp] theorem withOperand_some {width : Nat} (q : Request) (x : Word width)
    (go : Word width → Host.Outcome State Fault Refusal) : withOperand q (some x) go = go x := rfl

@[simp] theorem withOperand_none {width : Nat} (q : Request) (go : Word width → Host.Outcome State Fault Refusal) :
    withOperand q none go = .refused (.operandOutOfRange q) := rfl

/-- A sample is the settled value with the state as it was, or the next free value with the count advanced. -/
theorem sample_cases {m : Nat} (v : Variant) (elapsed : Nat) (settled : Word m) (s : State) :
    (Config.tSettle v ≤ elapsed ∧ sample v elapsed settled s = (settled, s)) ∨
    (elapsed < Config.tSettle v ∧
      sample v elapsed settled s = (Config.unsettled m s.draws, { s with draws := s.draws + 1 })) := by
  unfold sample
  by_cases h : Config.tSettle v ≤ elapsed
  · exact .inl ⟨h, if_pos h⟩
  · exact .inr ⟨Nat.lt_of_not_le h, if_neg h⟩

/-- A taken word sent through a channel is driven on the decoder with the listed bits inverted. -/
theorem transmit_of_some {b : Block n vw} {w : Word n} (h : b.encCw = some w) (flips : List Nat) :
    b.transmit flips = b.driveDecIn (flipBits w flips) := by
  rw [Block.transmit, h]

/-- A taken DEC_OUT latched back is driven on the decoder. -/
theorem latchDecOut_of_some {b : Block n vw} {w : Word n} (h : b.decOut = some w) :
    b.latchDecOut = b.driveDecIn w := by
  rw [Block.latchDecOut, h]

end Sys2Proof.Machine
end

