-- ==== Sys2Proof/Laws/PerInstr.lean ====
section
/-! SUPPORT. Statements about every operation as syntax, one lemma a constructor. -/

namespace Sys2Proof.Laws.Selector

/-- The byte of an operation is none of the reserved codes and holds nothing above OPSEL (30_encoding R51, R52). -/
def Statement (i : Instr) : Prop := (encode i).toNat < 6

theorem packA : Statement .packA := by unfold Statement; decide

theorem correctA : Statement .correctA := by unfold Statement; decide

theorem packB : Statement .packB := by unfold Statement; decide

theorem correctB : Statement .correctB := by unfold Statement; decide

theorem packC : Statement .packC := by unfold Statement; decide

theorem correctC : Statement .correctC := by unfold Statement; decide

end Sys2Proof.Laws.Selector
end

