-- ==== Sys2Proof/Laws/Tables.lean ====
section
/-! SUPPORT. What the table generator builds, bit by bit. -/

namespace Sys2Proof.Machine

/-- Bit `p` of the vector built from `f` below `m` is `f p`. -/
theorem getLsbD_vectorBelow (n : Nat) (f : Nat → Bool) (m p : Nat) :
    (vectorBelow n f m).getLsbD p = (decide (p < n) && (decide (p < m) && f p)) := by
  induction m with
  | zero => simp [vectorBelow]
  | succ m ih =>
    simp only [vectorBelow, BitVec.getLsbD_or, ih, BitVec.getLsbD_shiftLeft]
    by_cases hn : p < n
    · rcases Nat.lt_trichotomy p m with h | h | h
      · simp [hn, h, show p < m + 1 by omega]
      · subst h
        simp [hn, show 0 < n by omega]
      · have h0 : p - m ≠ 0 := by omega
        simp [hn, show ¬ p < m by omega, show ¬ p < m + 1 by omega, h0]
    · simp [hn]

/-- A covering mask holds exactly the positions it covers (30_encoding R44). -/
theorem getLsbD_coveringMask (n r : Nat) (order : List Nat) (i p : Nat) :
    (coveringMask n r order i).getLsbD p = (decide (p < n) && covers r order i p) := by
  rw [coveringMask, getLsbD_vectorBelow]
  by_cases h : p < n <;> simp [h]

end Sys2Proof.Machine
end

