-- ==== Sys2Proof/Tests/Slice0.lean ====
section
/-! SUPPORT. Tests of one step on small states, each expected value taken from the spec's tables and worked examples, and for
each statement with hypotheses a witness that meets them. -/

namespace Sys2Proof.Tests

open Sys2Proof.Machine Sys2Proof.Safety

/-! ### Helpers -/

/-- The next state, if there is one. -/
def after : Host.Outcome State Fault Refusal → Option State
  | .next s => some s
  | _ => none

/-- The reason of a fault, if there is one. -/
def faultOf : Host.Outcome State Fault Refusal → Option Fault
  | .fault f => some f
  | _ => none

/-- The reason of a refusal, if there is one. -/
def refusalIn : Host.Outcome State Fault Refusal → Option Refusal
  | .refused q => some q
  | _ => none

theorem next_of_after {o : Host.Outcome State Fault Refusal} {t : State} (h : after o = some t) : o = .next t := by
  cases o with
  | next s => exact congrArg Host.Outcome.next (Option.some.inj h)
  | fault f => cases h
  | refused q => cases h

theorem exists_next_of_after {o : Host.Outcome State Fault Refusal} (h : (after o).isSome = true) :
    ∃ t, o = .next t := by
  obtain ⟨t, ht⟩ := Option.isSome_iff_exists.mp h
  exact ⟨t, next_of_after ht⟩

/-- Every input driven: with the worked examples of 40_encoder R57, R59, R60 on the encoders, and on the decoders those of
41_decoder R70, R72, R73. -/
def drivenState : State :=
  (((State.reset.putA ((State.reset.a.driveEncoder 0b101 1).driveDecIn 0xE5)).putB
    ((State.reset.b.driveEncoder 0x2AA 1).driveDecIn 0xAAD5)).putC
      ((State.reset.c.driveEncoder 0x123456789ABCDE 0).driveDecIn 0x123456789ABCDE16))

/-- The three decoders driven with other words. -/
def received (x : Word 8) (y : Word 16) (z : Word 64) : State :=
  ((drivenState.putA (drivenState.a.driveDecIn x)).putB (drivenState.b.driveDecIn y)).putC (drivenState.c.driveDecIn z)

/-! ### Decoding: 30_encoding R51 and R52, the code written out as {VCODE, OP} -/

theorem test_decode_packA : decode 0b00000000 = .ok .packA := rfl
theorem test_decode_correctA : decode 0b00000001 = .ok .correctA := rfl
theorem test_decode_packB : decode 0b00000010 = .ok .packB := rfl
theorem test_decode_correctB : decode 0b00000011 = .ok .correctB := rfl
theorem test_decode_packC : decode 0b00000100 = .ok .packC := rfl
theorem test_decode_correctC : decode 0b00000101 = .ok .correctC := rfl
theorem test_decode_reserved :
    decode 0b00000110 = .error (.reservedSelector 0b110) ∧ decode 0b00000111 = .error (.reservedSelector 0b111) := ⟨rfl, rfl⟩
theorem test_decode_not_selector : decode 0b00001000 = .error (.notSelector 0b00001000) := rfl
theorem test_table_words : ([0, 1, 2, 3, 4, 5, 6, 7].map fun w => decodeTableWord 8 w) =
    [some .packA, some .correctA, some .packB, some .correctB, some .packC, some .correctC, none, none] := by decide

/-- The word of each row runs as the first operation after reset: its output is taken. -/
theorem test_table_words_run_from_reset :
    ((after (step (State.reset.withFetchWord 8 0))).map fun s => s.a.encCw) = some (some 0) ∧
    ((after (step (State.reset.withFetchWord 8 1))).map fun s => s.a.decOut) = some (some 0) ∧
    ((after (step (State.reset.withFetchWord 8 2))).map fun s => s.b.encCw) = some (some 0) ∧
    ((after (step (State.reset.withFetchWord 8 3))).map fun s => s.b.decOut) = some (some 0) ∧
    ((after (step (State.reset.withFetchWord 8 4))).map fun s => s.c.encCw) = some (some 0) ∧
    ((after (step (State.reset.withFetchWord 8 5))).map fun s => s.c.decOut) = some (some 0) := by decide

/-! ### Well-formedness: an ill-formed term for each check -/

theorem test_wf_value_too_wide : (Request.pack .A 8 0).wellFormed = false := by decide
theorem test_wf_value_negative : (Request.pack .A (-1) 0).wellFormed = false := by decide
theorem test_wf_value_widest : (Request.pack .C (2 ^ 56 - 1) 7).wellFormed = true := by decide
theorem test_wf_word_too_wide : (Request.correct .B 0x10000).wellFormed = false := by decide
theorem test_wf_word_negative : (Request.correct .A (-91)).wellFormed = false := by decide
theorem test_wf_feedback :
    wiringWellFormed [{ source := (.A, .decOut), target := (.A, .decIn), storage := false }] = false := by decide
theorem test_wf_longer_loop :
    wiringWellFormed [{ source := (.A, .encCw), target := (.A, .decIn), storage := false },
      { source := (.A, .decErrcnt), target := (.A, .encTag), storage := false }] = false := by decide
theorem test_wf_loop_through_storage :
    wiringWellFormed [{ source := (.A, .encCw), target := (.A, .decIn), storage := false },
      { source := (.A, .decErrcnt), target := (.A, .encTag), storage := true }] = true := by decide

/-! ### Each operation: one step on `drivenState`, and one other word of 95_test_vectors -/

/-- 40_encoder R57, worked example. -/
theorem test_packA_example : ((after (exec .packA drivenState)).map fun s => s.a.encCw) = some (some 0xA5) := by decide
/-- 95_test_vectors 2.1: lowest and top value bit alone. -/
theorem test_packA_single_bits : packA 0b001 0 = 0x36 ∧ packA 0b100 0 = 0x9C := by decide
/-- 41_decoder R70, worked example. -/
theorem test_correctA_example :
    ((after (exec .correctA drivenState)).map fun s => (s.a.decErrcnt, s.a.decOut)) = some (some .one, some 0xA5) := by
  decide
/-- 41_decoder R71, worked example: bits 3 and 6 of 0xA5 flipped. -/
theorem test_correctA_double :
    ((after (exec .correctA (received 0xED 0 0))).map fun s => (s.a.decErrcnt, s.a.decOut)) =
      some (some .two, some 0x00) := by decide
/-- 40_encoder R59, worked example. -/
theorem test_packB_example : ((after (exec .packB drivenState)).map fun s => s.b.encCw) = some (some 0xAA95) := by decide
/-- 95_test_vectors 2.1: lowest and top value bit alone. -/
theorem test_packB_single_bits : packB 0x001 0 = 0x0056 ∧ packB 0x200 0 = 0x803E := by decide
/-- 41_decoder R72, worked example. -/
theorem test_correctB_example :
    ((after (exec .correctB drivenState)).map fun s => (s.b.decErrcnt, s.b.decOut)) = some (some .one, some 0xAA95) := by
  decide
/-- 95_test_vectors 2.2: check bit 3 of 0xAA95 flipped, syndrome 8 at position 5. -/
theorem test_correctB_check_bit :
    ((after (exec .correctB (received 0 0xAAB5 0))).map fun s => (s.b.decErrcnt, s.b.decOut)) =
      some (some .one, some 0xAA95) := by decide
/-- 40_encoder R60, worked example. -/
theorem test_packC_example :
    ((after (exec .packC drivenState)).map fun s => s.c.encCw) = some (some 0x123456789ABCDE96) := by decide
/-- 95_test_vectors 2.1: lowest and top value bit alone. -/
theorem test_packC_single_bits :
    packC 0x00000000000001 0 = 0x0000000000000116 ∧ packC 0x80000000000000 0 = 0x80000000000000FE := by decide
/-- 41_decoder R73, worked example. -/
theorem test_correctC_example :
    ((after (exec .correctC drivenState)).map fun s => (s.c.decErrcnt, s.c.decOut)) =
      some (some .one, some 0x123456789ABCDE96) := by decide
/-- 95_test_vectors 2.2: bits 3, 5, 7 flipped, miscorrected into bit 42. -/
theorem test_correctC_miscorrection :
    ((after (exec .correctC (received 0 0 0x123456789ABCDE3E))).map fun s => (s.c.decErrcnt, s.c.decOut)) =
      some (some .one, some 0x123452789ABCDE3E) := by decide

/-! ### The step and the environment -/

/-- An operation with an undriven input is stuck (70_reset_and_hazards R93). -/
theorem test_undriven_is_stuck :
    faultOf (exec .packA (State.reset.putA (State.reset.a.driveEncValue 5))) = some (.inputNotDriven .A .encTag) := by decide
/-- 95_test_vectors P5: both units of variant A in one step. -/
theorem test_both_units_in_one_step :
    ((after (step ((State.reset.putA ((State.reset.a.driveEncoder 0b111 0).driveDecIn 0xF1)).putRequest
      [0b000, 0b001]))).map fun s => (s.a.encCw, s.a.decErrcnt, s.a.decOut)) =
      some (some 0xF0, some .one, some 0xF0) := by decide
/-- 60_exceptions R87: CORRECT.A stuck on an undriven input and a reserved byte beside it, PACK.A with its result, and each
stop on record. -/
theorem test_stop_affects_no_other :
    ((after (step ((State.reset.putA (State.reset.a.driveEncoder 0b101 1)).putRequest [0b110, 0b001, 0b000]))).map fun s =>
      (s.a.encCw, s.a.decErrcnt, s.stops)) =
      some (some 0xA5, none, [.notDriven .A .decIn, .byRefusal (.reservedSelector 0b110)]) := by decide
/-- Nothing completes: every reason is named; a byte that is no operation is refused and never a fault (30_encoding R52). -/
theorem test_nothing_completes :
    faultOf (step (State.reset.putRequest [0b110, 0b001])) =
      some (.noneCompleted [.notDriven .A .decIn, .byRefusal (.reservedSelector 0b110)]) ∧
    refusalIn (step (State.reset.putRequest [0b111, 0b110])) =
      some (.noOperation [.reservedSelector 0b110, .reservedSelector 0b111]) := by decide
/-- 60_exceptions R82: an invariant violation stays on record, a stuck operation does not. -/
theorem test_final_stops_stay :
    ((after (step ((drivenState.putRequest [0b000]).putStops [.notDriven .A .decIn, .violation .A 5]))).map fun s => s.stops) =
      some [.violation .A 5] := by decide
/-- 95_test_vectors 2.1, integer entries: tag 2 is tag 0; value 8 and value -1 are refused. -/
theorem test_integer_entries :
    ((after (issue (.pack .A 0b101 2) State.reset)).map fun s => s.a.encCw) = some (some 0xAA) ∧
    refusalIn (issue (.pack .A 8 0) State.reset) = some (.operandOutOfRange (.pack .A 8 0)) ∧
    refusalIn (issue (.pack .A (-1) 0) State.reset) = some (.operandOutOfRange (.pack .A (-1) 0)) := by decide
/-- 95_test_vectors P1: pack, flip bit 6, correct, unpack. -/
theorem test_pack_flip_correct_unpack :
    ((after (exec .packA drivenState)).bind fun s =>
      (after (exec .correctA (s.putA (s.a.transmit [6])))).map fun t => (t.a.decIn, t.a.decOut, t.a.recover 3)) =
      some (some 0xE5, some 0xA5, some (0b101, 1)) := by decide
/-- 95_test_vectors P2: after a double error nothing is recovered. -/
theorem test_sentinel_is_not_recovered :
    ((after (exec .packA drivenState)).bind fun s =>
      (after (exec .correctA (s.putA (s.a.transmit [3, 6])))).map fun t => (t.a.decOut, t.a.recover 3)) =
      some (some 0x00, none) := by decide
/-- 95_test_vectors P3: re-decoding the repaired word through the latch. -/
theorem test_redecode_through_latch :
    ((after (exec .correctB (received 0 0xAA97 0))).bind fun s =>
      (after (exec .correctB (s.putB s.b.latchDecOut))).map fun t => (s.b.decErrcnt, t.b.decErrcnt, t.b.decOut)) =
      some (some .one, some .zero, some 0xAA95) := by decide
/-- 95_test_vectors 1.1: the signed view of 0xA5. -/
theorem test_signed_view : signedView (0xA5 : Word 8) = -91 := by decide

/-! ### Witnesses: the hypotheses of each statement can be met together -/

theorem witness_ReservedSelectorsAreRefused :
    (State.reset.putRequest [(0b110 : BitVec 3).setWidth 8]).request = [(0b110 : BitVec 3).setWidth 8] ∧
    (State.reset.putRequest [(0b111 : BitVec 3).setWidth 8]).request = [(0b111 : BitVec 3).setWidth 8] ∧
    (0b101 : BitVec 3) ≠ 0b110 ∧ (0b101 : BitVec 3) ≠ 0b111 := by decide

theorem witness_StepRunsTheRequestedOperation :
    (drivenState.putRequest [0x05]).request = [0x05] ∧ decode 0x05 = .ok .correctC ∧
    (drivenState.putRequest [0x05]).stops = [] := ⟨rfl, rfl, rfl⟩

/-- Beside an operation that completes: one that is stuck, one that is not requested, and a byte that is no operation. -/
theorem witness_EachRequestedOperationHasItsOwnResult :
    let s := (State.reset.putA (State.reset.a.driveEncoder 0b101 1)).putRequest [0b110, 0b001, 0b000]
    encode .packA ∈ s.request ∧ (after (exec .packA s)).isSome ∧ encode .correctA ∈ s.request ∧
      faultOf (exec .correctA s) = some (.inputNotDriven .A .decIn) ∧ encode .packB ∉ s.request ∧
      (0b110 : Byte) ∈ s.request ∧ decode 0b110 = .error (.reservedSelector 0b110) := by decide

/-- No byte an operation; and one, stuck, beside a byte that is none. -/
theorem witness_StepWithNoResultNamesEveryStop :
    (∀ i u, encode i ∈ (State.reset.putRequest [0b110, 0b111]).request →
      exec i (State.reset.putRequest [0b110, 0b111]) ≠ .next u) ∧
    (∀ i : Instr, encode i ∉ (State.reset.putRequest [0b110, 0b111]).request) ∧
    (∀ i u, encode i ∈ (State.reset.putRequest [0b110, 0b001]).request →
      exec i (State.reset.putRequest [0b110, 0b001]) ≠ .next u) ∧
    encode .correctA ∈ (State.reset.putRequest [0b110, 0b001]).request ∧
    (0b110 : Byte) ≠ 0b111 ∧ (0b110 : Byte) ≠ 0b001 := by
  refine ⟨?_, ?_, ?_, by decide, by decide, by decide⟩
  all_goals (intro i; cases i)
  all_goals first | decide | (intro u _ h; cases h)

theorem witness_OrderOfTheRequestDoesNotMatter :
    (∀ b, b ∈ ([0b001, 0b000, 0b001] : List Byte) ↔ b ∈ (drivenState.putRequest [0b000, 0b001]).request) ∧
    (after (step (drivenState.putRequest [0b000, 0b001]))).isSome ∧
    (faultOf (step (State.reset.putRequest [0b000, 0b001]))).isSome ∧
    (refusalIn (step (State.reset.putRequest [0b110, 0b111]))).isSome :=
  ⟨by intro b; simp [State.putRequest]; tauto, by decide, by decide, by decide⟩

theorem witness_OperationsInOneStepDoNotInteract :
    (∃ t, exec .packA drivenState = .next t) ∧ ∃ u, exec .correctA drivenState = .next u :=
  ⟨exists_next_of_after (by decide), exists_next_of_after (by decide)⟩

theorem witness_OperationsRunExactlyWhenTheirInputsAreDriven :
    (∀ i : Instr, InputsDriven i drivenState) ∧ (∀ i : Instr, ¬ InputsDriven i State.reset) := by
  constructor
  · intro i p _
    cases i <;> cases p <;> rfl
  · intro i h
    cases i
    · exact absurd (h .encTag rfl) (by decide)
    · exact absurd (h .decIn rfl) (by decide)
    · exact absurd (h .encTag rfl) (by decide)
    · exact absurd (h .decIn rfl) (by decide)
    · exact absurd (h .encTag rfl) (by decide)
    · exact absurd (h .decIn rfl) (by decide)

theorem witness_PackAFollowsItsFormula :
    drivenState.a.encValue = some 0b101 ∧ drivenState.a.encTag = some 1 := by decide

theorem witness_PackBFollowsItsFormula :
    drivenState.b.encValue = some 0x2AA ∧ drivenState.b.encTag = some 1 := by decide

theorem witness_PackCFollowsItsFormula :
    drivenState.c.encValue = some 0x123456789ABCDE ∧ drivenState.c.encTag = some 0 := by decide

theorem witness_PackChangesOnlyItsCodeword :
    (∃ t, exec .packA drivenState = .next t) ∧ (∃ t, exec .packB drivenState = .next t) ∧
    ∃ t, exec .packC drivenState = .next t :=
  ⟨exists_next_of_after (by decide), exists_next_of_after (by decide), exists_next_of_after (by decide)⟩

theorem witness_CorrectChangesOnlyItsOutputs :
    (∃ t, exec .correctA drivenState = .next t) ∧ (∃ t, exec .correctB drivenState = .next t) ∧
    ∃ t, exec .correctC drivenState = .next t :=
  ⟨exists_next_of_after (by decide), exists_next_of_after (by decide), exists_next_of_after (by decide)⟩

theorem witness_RepeatingAnOperationChangesNothing : ∀ i : Instr, ∃ t, exec i drivenState = .next t := by
  intro i
  cases i <;> exact exists_next_of_after (by decide)

/-- Two states that agree on the encoder inputs of A and on no decoder input, and both run PACK.A; and the other way round. -/
theorem witness_ResultsDependOnOwnInputsAlone :
    (drivenState.a.encValue = (received 0 0 0).a.encValue ∧ drivenState.a.encTag = (received 0 0 0).a.encTag ∧
      drivenState ≠ received 0 0 0 ∧
      (∃ t, exec .packA drivenState = .next t) ∧ ∃ t, exec .packA (received 0 0 0) = .next t) ∧
    ((received 0xE5 0 0).a.decIn = drivenState.a.decIn ∧ drivenState ≠ received 0xE5 0 0 ∧
      (∃ t, exec .correctA drivenState = .next t) ∧ ∃ t, exec .correctA (received 0xE5 0 0) = .next t) :=
  ⟨⟨rfl, rfl, by decide, exists_next_of_after (by decide), exists_next_of_after (by decide)⟩,
    ⟨rfl, by decide, exists_next_of_after (by decide), exists_next_of_after (by decide)⟩⟩

theorem witness_PackedWordsFormALinearDistanceFourCode :
    ((0b101, 0) : Word 3 × Word 1) ≠ (0b101, 1) ∧ ((0x3FF, 1) : Word 10 × Word 1) ≠ (0x1FF, 1) ∧
    ((0, 0) : Word 56 × Word 1) ≠ (1, 0) := by decide

theorem witness_CheckBitsAreMaskParities :
    tablesA.masks[0]? = some 0xA1 ∧ tablesA.masks[2]? = some 0xE0 ∧ tablesB.masks[3]? = some 0xFE00 ∧
    tablesC.masks[5]? = some 0xFFFFFFFE00000000 ∧ (1 < 2 ∨ 3 + 1 < 1) ∧ (5 < 2 ∨ 3 + 1 < 5) := by decide

theorem witness_CorrectFollowsItsFormula :
    drivenState.a.decIn = some 0xE5 ∧ drivenState.b.decIn = some 0xAAD5 ∧
    drivenState.c.decIn = some 0x123456789ABCDE16 := by decide

theorem witness_SyndromeIsLinearWithOneIndexPerPosition :
    checkRowsA[2]? = some 0xF0 ∧ tablesA.masks[2]? = some 0xE0 ∧ checkRowsB[3]? = some 0xFE20 ∧
    tablesB.masks[3]? = some 0xFE00 ∧ checkRowsC[5]? = some 0xFFFFFFFE00000080 ∧
    tablesC.masks[5]? = some 0xFFFFFFFE00000000 ∧
    (parity (0xA5 : Word 8) = false ∧ syndrome tablesA 0xA5 = 0) ∧
    (parity (0xAA95 : Word 16) = false ∧ syndrome tablesB 0xAA95 = 0) ∧
    (parity (0x123456789ABCDE96 : Word 64) = false ∧ syndrome tablesC 0x123456789ABCDE96 = 0) := by decide

theorem witness_PackedWordsDecodeUnchanged :
    (received (packA 0b101 1) (packB 0x2AA 1) (packC 0 1)).a.decIn = some (packA 0b101 1) ∧
    (received (packA 0b101 1) (packB 0x2AA 1) (packC 0 1)).b.decIn = some (packB 0x2AA 1) ∧
    (received (packA 0b101 1) (packB 0x2AA 1) (packC 0 1)).c.decIn = some (packC 0 1) := ⟨rfl, rfl, rfl⟩

/-- Positions 0 and n - 1. -/
theorem witness_EverySingleFlipIsCorrected :
    (received 0x25 0 0).a.decIn = some (packA 0b101 1 ^^^ (1#8 <<< 7)) ∧
    (received 0xA4 0 0).a.decIn = some (packA 0b101 1 ^^^ (1#8 <<< 0)) ∧
    (received 0 0x2A95 0).b.decIn = some (packB 0x2AA 1 ^^^ (1#16 <<< 15)) ∧
    (received 0 0 0x923456789ABCDE96).c.decIn = some (packC 0x123456789ABCDE 0 ^^^ (1#64 <<< 63)) := by decide

theorem witness_EveryDoubleFlipIsDetected :
    (received 0xA6 0 0).a.decIn = some (packA 0b101 1 ^^^ (1#8 <<< 0) ^^^ (1#8 <<< 1)) ∧
    (received 0 0x6A95 0).b.decIn = some (packB 0x2AA 1 ^^^ (1#16 <<< 14) ^^^ (1#16 <<< 15)) ∧
    (received 0 0 0x923456789ABCDE94).c.decIn =
      some (packC 0x123456789ABCDE 0 ^^^ (1#64 <<< 1) ^^^ (1#64 <<< 63)) := by decide

theorem witness_DecodingTwiceIsIdempotent :
    (∃ t, exec .correctA drivenState = .next t ∧ t.a.decOut = some 0xA5) ∧
    (∃ t, exec .correctB drivenState = .next t ∧ t.b.decOut = some 0xAA95) ∧
    ∃ t, exec .correctC drivenState = .next t ∧ t.c.decOut = some 0x123456789ABCDE96 :=
  ⟨⟨drivenState.putA (drivenState.a.recordDecoder .one 0xA5), next_of_after (by decide), rfl⟩,
    ⟨drivenState.putB (drivenState.b.recordDecoder .one 0xAA95), next_of_after (by decide), rfl⟩,
    ⟨drivenState.putC (drivenState.c.recordDecoder .one 0x123456789ABCDE96), next_of_after (by decide), rfl⟩⟩

theorem witness_InvariantViolationIsUnreachable :
    (1 : Word 3) ≠ 0 ∧ (15 : Word 4) ≠ 0 ∧ (63 : Word 6) ≠ 0 := by decide

/-- Tables of an A-sized engine whose map places no syndrome: a tag flip has none; and a step that faults. -/
theorem witness_UnmappedSyndromeFaultsForGood :
    ((Block.undriven 8 3).driveDecIn 0x01).decIn = some 0x01 ∧ parity (0x01 : Word 8) = true ∧
    syndrome ({ masks := masksA, positions := [] } : Tables 8 3) 0x01 ≠ 0 ∧
    errorPosition ({ masks := masksA, positions := [] } : Tables 8 3)
      (syndrome { masks := masksA, positions := [] } (0x01 : Word 8)) = none ∧
    faultOf (step (State.reset.putRequest [0x01])) = some (.inputNotDriven .A .decIn) := by decide

/-- One input for each error count. -/
theorem witness_EveryAnswerIsACodewordNearTheInput :
    correctWord tablesA 0xA5 = .ok (.zero, 0xA5) ∧ correctWord tablesB 0xAAD5 = .ok (.one, 0xAA95) ∧
    correctWord tablesC 0x123456789ABCDE95 = .ok (.two, 0) := ⟨rfl, rfl, rfl⟩

theorem witness_CoveringMasksExcludeCheckAndParityBits :
    isDataPosition 3 0 = true ∧ isDataPosition 3 7 = true ∧ isDataPosition 6 63 = true ∧
    (tablesC.masks.map fun m => m.getLsbD 63) = (tablesC.masks.map fun m => m.getLsbD 63) := by decide

/-- An order other than the default. -/
theorem witness_EveryOrder : ValidOrder 3 [7, 5, 6] ∧ ValidOrder 4 [15, 14, 13, 12, 11, 10, 9, 7, 6, 5] := by decide

/-- A state whose encoder and decoder outputs of A are taken meets both invariants, and a step from it answers a next state. -/
def recordedState : State :=
  (drivenState.putA ((drivenState.a.recordEncoder 0xA5).recordDecoder .one 0xA5)).putRequest [0, 1, 2, 3, 4, 5]

theorem witness_StepKeepsOutputsFollowingInputs :
    OutputsFollowInputs recordedState ∧ ∃ t, step recordedState = .next t :=
  ⟨⟨⟨.inr (by decide), .inr ⟨.one, 0xA5, rfl, rfl, by decide⟩⟩, ⟨.inl rfl, .inl ⟨rfl, rfl⟩⟩, ⟨.inl rfl, .inl ⟨rfl, rfl⟩⟩⟩,
    exists_next_of_after (by decide)⟩

theorem witness_EnvironmentKeepsOutputsFollowingInputs : BlockOutputsFollowInputs tablesA recordedState.a :=
  ⟨.inr (by decide), .inr ⟨.one, 0xA5, rfl, rfl, by decide⟩⟩

theorem witness_StepKeepsOutputsCodewords :
    OutputsAreCodewords recordedState ∧ ∃ t, step recordedState = .next t := by
  refine ⟨⟨⟨?_, ?_, ?_⟩, ⟨?_, ?_, ?_⟩, ⟨?_, ?_, ?_⟩⟩, exists_next_of_after (by decide)⟩
  · rintro w ⟨⟩; exact ⟨by decide, by decide⟩
  · rintro w ⟨⟩; exact ⟨by decide, by decide⟩
  all_goals (intros; contradiction)

theorem witness_ChannelWithAtMostTwoFlips :
    drivenState.a.encValue = some 0b101 ∧ drivenState.a.encTag = some 1 ∧
    ([7] : List Nat) = [7] ∧ ([0, 7] : List Nat) = [0, 7] := by decide

theorem witness_OutOfRangeValuesAreRefused :
    ((-1 : Int) < 0) ∧ (2 ^ (Variant.k .A - 1) ≤ (8 : Int)) ∧ (2 ^ (Variant.k .B - 1) ≤ (0x400 : Int)) ∧
    (2 ^ (Variant.k .C - 1) ≤ (2 ^ 56 : Int)) := by decide

theorem witness_OnlyTheLowTagBitCounts :
    (0 : Int) ≤ 7 ∧ (7 : Int) < 2 ^ Variant.vw .A ∧ (2 ^ 56 - 1 : Int) < 2 ^ Variant.vw .C := by decide

theorem witness_SettledOutputsAreTheFunctionOfTheInputs :
    drivenState.a.encValue = some 0b101 ∧ drivenState.a.encTag = some 1 ∧ drivenState.a.decIn = some 0xE5 ∧
    correctWord tablesA 0xE5 = .ok (.one, 0xA5) := ⟨rfl, rfl, rfl, rfl⟩

theorem witness_CombinationalFeedbackIsRefused :
    ({ source := (.B, .encCw), target := (.B, .encValue), storage := false } : Wire).sourceUnit =
      ({ source := (.B, .encCw), target := (.B, .encValue), storage := false } : Wire).targetUnit ∧
    ∀ w ∈ [({ source := (.B, .decOut), target := (.B, .decIn), storage := true } : Wire)], w.storage = true := by decide

end Sys2Proof.Tests
end

section
/-! SUPPORT. What the family 10_state rests on: what a settled output depends on, which changes of a block keep
its recorded outputs the function of its inputs, and what a step that requests one byte is. -/

namespace Sys2Proof.Machine

variable {n vw : Nat}

/-- A step that requests one byte is the answer to it, with the final stops alone on record. -/
theorem step_of_request_singleton {s : State} {byte : Byte} (h : s.request = [byte]) :
    step s = answer byte (beginStep s) := by
  simp only [step, runRequest, h, requestedBytes, insertByte]

/-- The answer to a byte that decodes is its operation. -/
theorem answer_of_decode {byte : Byte} {i : Instr} (h : decode byte = .ok i) (s : State) :
    answer byte s = exec i s := by
  simp only [answer, h]

/-- With nothing on record a step begins at the very state. -/
theorem beginStep_of_stops_nil {s : State} (h : s.stops = []) : beginStep s = s := by
  cases s
  cases h
  rfl

/-- A channel with no word taken drives nothing. -/
theorem transmit_of_none {b : Block n vw} (h : b.encCw = none) (flips : List Nat) : b.transmit flips = b := by
  rw [Block.transmit, h]

/-- A latch with no word taken drives nothing. -/
theorem latchDecOut_of_none {b : Block n vw} (h : b.decOut = none) : b.latchDecOut = b := by
  rw [Block.latchDecOut, h]

end Sys2Proof.Machine

namespace Sys2Proof.Safety

open Sys2Proof.Machine

variable {n r vw : Nat} {t : Tables n r} {x y : Block n vw}

/-! ### Settled outputs -/

/-- With both inputs driven, ENC_CW settles on the packed word. -/
theorem settledEncCw_of_driven {value : Word vw} {tag : Word 1} (hv : x.encValue = some value)
    (hg : x.encTag = some tag) : settledEncCw t x = some (packWord t value tag) := by
  simp only [settledEncCw, hv, hg]

/-- With its input driven and answered, the decoder settles on the answer. -/
theorem settledDecoder_of_answer {word : Word n} {answer : ErrCount × Word n} (hy : x.decIn = some word)
    (hc : correctWord t word = .ok answer) : settledDecoder t x = some answer := by
  simp only [settledDecoder, hy, hc, Except.toOption]

/-- ENC_CW depends on the encoder's inputs alone (10_state R14). -/
theorem settledEncCw_congr (hv : x.encValue = y.encValue) (hg : x.encTag = y.encTag) :
    settledEncCw t x = settledEncCw t y := by
  simp only [settledEncCw, hv, hg]

/-- The decoder's outputs depend on DEC_IN alone (10_state R14). -/
theorem settledDecoder_congr (hd : x.decIn = y.decIn) : settledDecoder t x = settledDecoder t y := by
  simp only [settledDecoder, hd]

/-! ### Changes of a block that keep its outputs the function of its inputs -/

theorem blockOutputsFollowInputs_undriven (t : Tables n r) :
    BlockOutputsFollowInputs t (Block.undriven n vw) :=
  ⟨.inl rfl, .inl ⟨rfl, rfl⟩⟩

theorem blockOutputsAreCodewords_undriven (t : Tables n r) :
    BlockOutputsAreCodewords t (Block.undriven n vw) := by
  refine ⟨?_, ?_, ?_⟩ <;> simp

/-- Whatever is done to the encoder's inputs, if ENC_CW is discarded and the decoder's ports stay. -/
theorem BlockOutputsFollowInputs.of_encCw_discarded (hx : BlockOutputsFollowInputs t x) (hcw : y.encCw = none)
    (hin : y.decIn = x.decIn) (hcount : y.decErrcnt = x.decErrcnt) (hout : y.decOut = x.decOut) :
    BlockOutputsFollowInputs t y := by
  obtain ⟨-, hdec⟩ := hx
  refine ⟨.inl hcw, ?_⟩
  rwa [hcount, hout, settledDecoder_congr hin]

/-- Whatever is done to the decoder's input, if its outputs are discarded and the encoder's ports stay. -/
theorem BlockOutputsFollowInputs.of_decoder_discarded (hx : BlockOutputsFollowInputs t x)
    (hcount : y.decErrcnt = none) (hout : y.decOut = none) (hv : y.encValue = x.encValue)
    (hg : y.encTag = x.encTag) (hcw : y.encCw = x.encCw) : BlockOutputsFollowInputs t y := by
  obtain ⟨henc, -⟩ := hx
  refine ⟨?_, .inl ⟨hcount, hout⟩⟩
  rwa [hcw, settledEncCw_congr hv hg]

theorem BlockOutputsFollowInputs.driveEncValue (hx : BlockOutputsFollowInputs t x) (value : Word vw) :
    BlockOutputsFollowInputs t (x.driveEncValue value) :=
  hx.of_encCw_discarded rfl rfl rfl rfl

theorem BlockOutputsFollowInputs.driveEncTag (hx : BlockOutputsFollowInputs t x) (tag : Word 1) :
    BlockOutputsFollowInputs t (x.driveEncTag tag) :=
  hx.of_encCw_discarded rfl rfl rfl rfl

theorem BlockOutputsFollowInputs.releaseEncoder (hx : BlockOutputsFollowInputs t x) :
    BlockOutputsFollowInputs t x.releaseEncoder :=
  hx.of_encCw_discarded rfl rfl rfl rfl

theorem BlockOutputsFollowInputs.driveDecIn (hx : BlockOutputsFollowInputs t x) (word : Word n) :
    BlockOutputsFollowInputs t (x.driveDecIn word) :=
  hx.of_decoder_discarded rfl rfl rfl rfl rfl

theorem BlockOutputsFollowInputs.releaseDecoder (hx : BlockOutputsFollowInputs t x) :
    BlockOutputsFollowInputs t x.releaseDecoder :=
  hx.of_decoder_discarded rfl rfl rfl rfl rfl

/-- The channel drives DEC_IN, or does nothing while no word was taken. -/
theorem BlockOutputsFollowInputs.transmit (hx : BlockOutputsFollowInputs t x) (flips : List Nat) :
    BlockOutputsFollowInputs t (x.transmit flips) := by
  cases hcw : x.encCw with
  | none => rwa [transmit_of_none hcw]
  | some w => exact transmit_of_some hcw flips ▸ hx.driveDecIn _

/-- The latch drives DEC_IN, or does nothing while no word was taken. -/
theorem BlockOutputsFollowInputs.latchDecOut (hx : BlockOutputsFollowInputs t x) :
    BlockOutputsFollowInputs t x.latchDecOut := by
  cases hout : x.decOut with
  | none => rwa [latchDecOut_of_none hout]
  | some w => exact latchDecOut_of_some hout ▸ hx.driveDecIn w

/-- Taking at ENC_CW what it has settled on. -/
theorem BlockOutputsFollowInputs.recordEncoder (hx : BlockOutputsFollowInputs t x) {word : Word n}
    (hw : settledEncCw t x = some word) : BlockOutputsFollowInputs t (x.recordEncoder word) := by
  obtain ⟨-, hdec⟩ := hx
  exact ⟨.inr hw.symm, hdec⟩

/-- Taking at the decoder's outputs what they have settled on. -/
theorem BlockOutputsFollowInputs.recordDecoder (hx : BlockOutputsFollowInputs t x) {count : ErrCount} {word : Word n}
    (hw : settledDecoder t x = some (count, word)) : BlockOutputsFollowInputs t (x.recordDecoder count word) := by
  obtain ⟨henc, -⟩ := hx
  exact ⟨henc, .inr ⟨count, word, rfl, rfl, hw⟩⟩

/-! ### Operations and steps -/

/-- Each operation takes at its unit's outputs what they have settled on, and changes no other port. -/
theorem exec_keeps_outputsFollowInputs (i : Instr) (s u : State) (hs : OutputsFollowInputs s)
    (h : exec i s = .next u) : OutputsFollowInputs u := by
  obtain ⟨ha, hb, hc⟩ := hs
  cases i with
  | packA =>
    obtain ⟨value, tag, hv, hg, rfl⟩ := (exec_packA_next_iff s u).mp h
    exact ⟨ha.recordEncoder (settledEncCw_of_driven hv hg), hb, hc⟩
  | correctA =>
    obtain ⟨word, count, out, hy, hans, rfl⟩ := (exec_correctA_next_iff s u).mp h
    exact ⟨ha.recordDecoder (settledDecoder_of_answer hy hans), hb, hc⟩
  | packB =>
    obtain ⟨value, tag, hv, hg, rfl⟩ := (exec_packB_next_iff s u).mp h
    exact ⟨ha, hb.recordEncoder (settledEncCw_of_driven hv hg), hc⟩
  | correctB =>
    obtain ⟨word, count, out, hy, hans, rfl⟩ := (exec_correctB_next_iff s u).mp h
    exact ⟨ha, hb.recordDecoder (settledDecoder_of_answer hy hans), hc⟩
  | packC =>
    obtain ⟨value, tag, hv, hg, rfl⟩ := (exec_packC_next_iff s u).mp h
    exact ⟨ha, hb, hc.recordEncoder (settledEncCw_of_driven hv hg)⟩
  | correctC =>
    obtain ⟨word, count, out, hy, hans, rfl⟩ := (exec_correctC_next_iff s u).mp h
    exact ⟨ha, hb, hc.recordDecoder (settledDecoder_of_answer hy hans)⟩

/-- The record of stops is no port. -/
theorem OutputsFollowInputs.putStops {s : State} (hs : OutputsFollowInputs s) (stops : List Stop) :
    OutputsFollowInputs (s.putStops stops) := hs

end Sys2Proof.Safety
end

section
/-! The statements of the family 10_state. -/

open Sys2Proof Sys2Proof.Machine Sys2Proof.Safety

/-- Settles O41: every operation and the record of stops keep the invariant, so every step does. -/
theorem stepKeepsOutputsFollowingInputs : Obligations.StepKeepsOutputsFollowingInputs :=
  fun _ _ hs h => step_keeps exec_keeps_outputsFollowInputs (fun _ stops hs => hs.putStops stops) hs h

/-- Settles O42: each action discards the outputs of the unit whose input it changes, and leaves the other unit's ports. -/
theorem environmentKeepsOutputsFollowingInputs : Obligations.EnvironmentKeepsOutputsFollowingInputs :=
  fun _ _ _ _ _ hx =>
    ⟨hx.driveEncValue, hx.driveEncTag, hx.driveDecIn, hx.releaseEncoder, hx.releaseDecoder, hx.transmit, hx.latchDecOut⟩

/-- Settles O4: one requested byte is answered at the state in which the step begins. -/
theorem stepRunsTheRequestedOperation : Obligations.StepRunsTheRequestedOperation := by
  intro s byte i hreq hdec
  have hstep : step s = exec i (beginStep s) := by
    rw [step_of_request_singleton hreq, answer_of_decode hdec]
  exact ⟨hstep, fun hstops => by rw [hstep, beginStep_of_stops_nil hstops]⟩

/-- Settles O40: at power-up every block is undriven. -/
theorem resetMeetsTheOutputInvariants : Obligations.ResetMeetsTheOutputInvariants :=
  ⟨⟨blockOutputsFollowInputs_undriven _, blockOutputsFollowInputs_undriven _, blockOutputsFollowInputs_undriven _⟩,
    ⟨blockOutputsAreCodewords_undriven _, blockOutputsAreCodewords_undriven _, blockOutputsAreCodewords_undriven _⟩⟩

end

section
/-! SUPPORT. What the family 20_memory rests on: an operation reads the inputs of its own unit and replaces the outputs
of that unit, and nothing else, so what it does in one state it does in every state with the same inputs. -/

namespace Sys2Proof.Safety

open Sys2Proof.Machine

variable {n r vw : Nat} {i j : Instr} {s s' t t' u v w : State} {f : Fault}

/-- The state `s` with the values at the output ports of an operation's unit taken from `w` (10_state R21). -/
def takeOutputs (i : Instr) (w s : State) : State :=
  match i with
  | .packA => s.putA { s.a with encCw := w.a.encCw }
  | .correctA => s.putA { s.a with decErrcnt := w.a.decErrcnt, decOut := w.a.decOut }
  | .packB => s.putB { s.b with encCw := w.b.encCw }
  | .correctB => s.putB { s.b with decErrcnt := w.b.decErrcnt, decOut := w.b.decOut }
  | .packC => s.putC { s.c with encCw := w.c.encCw }
  | .correctC => s.putC { s.c with decErrcnt := w.c.decErrcnt, decOut := w.c.decOut }

/-- Two states agree on the input ports of the unit that performs an operation (10_state R20). -/
def SameUnitInputs : Instr → State → State → Prop
  | .packA, s, t => s.a.encValue = t.a.encValue ∧ s.a.encTag = t.a.encTag
  | .correctA, s, t => s.a.decIn = t.a.decIn
  | .packB, s, t => s.b.encValue = t.b.encValue ∧ s.b.encTag = t.b.encTag
  | .correctB, s, t => s.b.decIn = t.b.decIn
  | .packC, s, t => s.c.encValue = t.c.encValue ∧ s.c.encTag = t.c.encTag
  | .correctC, s, t => s.c.decIn = t.c.decIn

/-! ### The three relations between states -/

theorem SameEnvironment.refl (s : State) : SameEnvironment s s :=
  ⟨⟨rfl, rfl, rfl⟩, ⟨rfl, rfl, rfl⟩, ⟨rfl, rfl, rfl⟩, rfl, rfl⟩

theorem SameBlockInputs.trans {x y z : Block n vw} (hxy : SameBlockInputs x y) (hyz : SameBlockInputs y z) :
    SameBlockInputs x z := by
  obtain ⟨hv, hg, hd⟩ := hxy
  obtain ⟨hv', hg', hd'⟩ := hyz
  exact ⟨hv.trans hv', hg.trans hg', hd.trans hd'⟩

theorem SameEnvironment.trans (hst : SameEnvironment s t) (htu : SameEnvironment t u) : SameEnvironment s u := by
  obtain ⟨ha, hb, hc, hr, hd⟩ := hst
  obtain ⟨ha', hb', hc', hr', hd'⟩ := htu
  exact ⟨ha.trans ha', hb.trans hb', hc.trans hc', hr.trans hr', hd.trans hd'⟩

theorem SameEnvironment.sameUnitInputs (h : SameEnvironment s t) (i : Instr) : SameUnitInputs i s t := by
  obtain ⟨⟨hva, hga, hda⟩, ⟨hvb, hgb, hdb⟩, ⟨hvc, hgc, hdc⟩, -, -⟩ := h
  cases i with
  | packA => exact ⟨hva, hga⟩
  | correctA => exact hda
  | packB => exact ⟨hvb, hgb⟩
  | correctB => exact hdb
  | packC => exact ⟨hvc, hgc⟩
  | correctC => exact hdc

theorem sameUnitInputs_putRequest (i : Instr) (s : State) (bytes : List Byte) :
    SameUnitInputs i s (s.putRequest bytes) := by
  cases i <;> simp [SameUnitInputs]

theorem SameOutputs.refl (i : Instr) (s : State) : SameOutputs i s s := by
  cases i <;> simp [SameOutputs]

theorem SameOutputs.symm (h : SameOutputs i s t) : SameOutputs i t s := by
  cases i <;> simp_all [SameOutputs]

theorem SameOutputs.trans (hst : SameOutputs i s t) (htu : SameOutputs i t u) : SameOutputs i s u := by
  cases i <;> simp_all [SameOutputs]

/-! ### What taking outputs changes -/

theorem sameEnvironment_takeOutputs (i : Instr) (w s : State) : SameEnvironment s (takeOutputs i w s) := by
  cases i <;> exact SameEnvironment.refl s

theorem sameOutputs_takeOutputs (i : Instr) (w s : State) : SameOutputs i (takeOutputs i w s) w := by
  cases i <;> simp [SameOutputs, takeOutputs]

/-- The outputs of another unit stay: the units share no port (10_state R20). -/
theorem sameOutputs_takeOutputs_of_ne (h : i ≠ j) (w s : State) : SameOutputs j (takeOutputs i w s) s := by
  cases i <;> cases j <;> simp [SameOutputs, takeOutputs] at h ⊢

/-- The outputs of two units are replaced in either order: the units share no port (10_state R20). -/
theorem takeOutputs_comm (h : i ≠ j) (v w s : State) :
    takeOutputs i v (takeOutputs j w s) = takeOutputs j w (takeOutputs i v s) := by
  cases i <;> cases j <;> simp [takeOutputs, State.putA, State.putB, State.putC] at h ⊢

theorem takeOutputs_self (i : Instr) (s : State) : takeOutputs i s s = s := by
  cases i <;> rfl

theorem takeOutputs_stops (i : Instr) (w s : State) : (takeOutputs i w s).stops = s.stops := by
  cases i <;> rfl

theorem takeOutputs_putRequest (i : Instr) (w s : State) (bytes : List Byte) :
    takeOutputs i w (s.putRequest bytes) = (takeOutputs i w s).putRequest bytes := by
  cases i <;> rfl

theorem takeOutputs_beginStep (i : Instr) (w s : State) :
    takeOutputs i w (beginStep s) = beginStep (takeOutputs i w s) := by
  cases i <;> rfl

/-! ### What an operation answers depends on the inputs of its unit alone -/

/-- An operation that completes drives the same in every state with the same inputs of its unit (20_memory R34). -/
theorem exec_next_congr (hin : SameUnitInputs i s s') (h : exec i s = .next t) :
    exec i s' = .next (takeOutputs i t s') := by
  cases i with
  | packA =>
    obtain ⟨value, tag, hv, hg, rfl⟩ := (exec_packA_next_iff s t).mp h
    exact (exec_packA_next_iff s' _).mpr ⟨value, tag, hin.1 ▸ hv, hin.2 ▸ hg, rfl⟩
  | correctA =>
    obtain ⟨y, count, word, hy, hc, rfl⟩ := (exec_correctA_next_iff s t).mp h
    exact (exec_correctA_next_iff s' _).mpr ⟨y, count, word, hin ▸ hy, hc, rfl⟩
  | packB =>
    obtain ⟨value, tag, hv, hg, rfl⟩ := (exec_packB_next_iff s t).mp h
    exact (exec_packB_next_iff s' _).mpr ⟨value, tag, hin.1 ▸ hv, hin.2 ▸ hg, rfl⟩
  | correctB =>
    obtain ⟨y, count, word, hy, hc, rfl⟩ := (exec_correctB_next_iff s t).mp h
    exact (exec_correctB_next_iff s' _).mpr ⟨y, count, word, hin ▸ hy, hc, rfl⟩
  | packC =>
    obtain ⟨value, tag, hv, hg, rfl⟩ := (exec_packC_next_iff s t).mp h
    exact (exec_packC_next_iff s' _).mpr ⟨value, tag, hin.1 ▸ hv, hin.2 ▸ hg, rfl⟩
  | correctC =>
    obtain ⟨y, count, word, hy, hc, rfl⟩ := (exec_correctC_next_iff s t).mp h
    exact (exec_correctC_next_iff s' _).mpr ⟨y, count, word, hin ▸ hy, hc, rfl⟩

/-- The frame of an operation: it replaces the outputs of its unit, and nothing else (20_memory R33). -/
theorem exec_frame (h : exec i s = .next t) : t = takeOutputs i t s := by
  have hsame := exec_next_congr ((SameEnvironment.refl s).sameUnitInputs i) h
  exact Host.Outcome.next.inj (h.symm.trans hsame)

theorem exec_sameEnvironment (h : exec i s = .next t) : SameEnvironment s t :=
  exec_frame h ▸ sameEnvironment_takeOutputs i t s

theorem exec_stops (h : exec i s = .next t) : t.stops = s.stops :=
  exec_frame h ▸ takeOutputs_stops i t s

theorem exec_sameOutputs_of_ne (h : exec i s = .next t) (hne : i ≠ j) : SameOutputs j t s :=
  exec_frame h ▸ sameOutputs_takeOutputs_of_ne hne t s

theorem exec_sameOutputs_of_sameUnitInputs (hin : SameUnitInputs i s s') (h : exec i s = .next t)
    (h' : exec i s' = .next t') : SameOutputs i t t' := by
  obtain rfl := Host.Outcome.next.inj (h'.symm.trans (exec_next_congr hin h))
  exact (sameOutputs_takeOutputs i t s').symm

/-- A second run finds the inputs of the first, and drives what stands at the outputs already (20_memory R33). -/
theorem exec_again (h : exec i s = .next t) : exec i t = .next t := by
  have hagain := exec_next_congr ((exec_sameEnvironment h).sameUnitInputs i) h
  rwa [takeOutputs_self] at hagain

/-- Two operations that both complete do so in either order, with one state in the end (20_memory R34). -/
theorem exec_comm (ht : exec i s = .next t) (hu : exec j s = .next u) :
    ∃ x, exec j t = .next x ∧ exec i u = .next x := by
  have hj : exec j t = .next (takeOutputs j u t) := exec_next_congr ((exec_sameEnvironment ht).sameUnitInputs j) hu
  have hi : exec i u = .next (takeOutputs i t u) := exec_next_congr ((exec_sameEnvironment hu).sameUnitInputs i) ht
  have hsame : takeOutputs i t u = takeOutputs j u t := by
    by_cases hij : i = j
    · subst hij
      obtain rfl := Host.Outcome.next.inj (ht.symm.trans hu)
      rfl
    · calc takeOutputs i t u = takeOutputs i t (takeOutputs j u s) := by rw [← exec_frame hu]
        _ = takeOutputs j u (takeOutputs i t s) := takeOutputs_comm hij t u s
        _ = takeOutputs j u t := by rw [← exec_frame ht]
  exact ⟨_, hj, hsame ▸ hi⟩

/-! ### What stops an operation depends on the inputs of its unit alone -/

theorem finish_fault_iff {β : Type} (result : Except Fault β) (put : β → State) (f : Fault) :
    finish result put = .fault f ↔ result = .error f := by
  cases result <;> simp [finish]

theorem runPack_error_congr {t : Tables n r} {v : Variant} {x y : Block n vw} (hv : x.encValue = y.encValue)
    (hg : x.encTag = y.encTag) (h : runPack t v x = .error f) : runPack t v y = .error f := by
  have hread : y.readEncoder v = x.readEncoder v := by simp only [Block.readEncoder, hv, hg]
  unfold runPack at h ⊢
  rw [hread]
  cases hx : x.readEncoder v with
  | error g => simpa only [hx] using h
  | ok inputs => simp [hx] at h

theorem runCorrect_error_congr {t : Tables n r} {v : Variant} {x y : Block n vw} (hd : x.decIn = y.decIn)
    (h : runCorrect t v x = .error f) : runCorrect t v y = .error f := by
  have hread : y.readDecoder v = x.readDecoder v := by simp only [Block.readDecoder, hd]
  unfold runCorrect at h ⊢
  rw [hread]
  cases hx : x.readDecoder v with
  | error g => simpa only [hx] using h
  | ok word =>
    cases hc : correctWord t word with
    | error syn => simpa only [hx, hc] using h
    | ok answer => simp [hx, hc] at h

/-- An operation that stops has the same reason in every state with the same inputs of its unit (20_memory R34). -/
theorem exec_fault_congr (hin : SameUnitInputs i s s') (h : exec i s = .fault f) : exec i s' = .fault f := by
  cases i with
  | packA => exact (finish_fault_iff _ _ f).mpr (runPack_error_congr hin.1 hin.2 ((finish_fault_iff _ _ f).mp h))
  | correctA => exact (finish_fault_iff _ _ f).mpr (runCorrect_error_congr hin ((finish_fault_iff _ _ f).mp h))
  | packB => exact (finish_fault_iff _ _ f).mpr (runPack_error_congr hin.1 hin.2 ((finish_fault_iff _ _ f).mp h))
  | correctB => exact (finish_fault_iff _ _ f).mpr (runCorrect_error_congr hin ((finish_fault_iff _ _ f).mp h))
  | packC => exact (finish_fault_iff _ _ f).mpr (runPack_error_congr hin.1 hin.2 ((finish_fault_iff _ _ f).mp h))
  | correctC => exact (finish_fault_iff _ _ f).mpr (runCorrect_error_congr hin ((finish_fault_iff _ _ f).mp h))

/-- Only a byte that is no operation is refused (30_encoding R52). -/
theorem exec_ne_refused (i : Instr) (s : State) (q : Refusal) : exec i s ≠ .refused q := by
  cases i <;> exact finish_ne_refused _ _ q

/-- Whether an operation completes depends on the inputs of its unit alone. -/
theorem exec_ne_next_congr (hin : SameUnitInputs i s s') (h : ∀ w, exec i s ≠ .next w) (w : State) :
    exec i s' ≠ .next w := by
  cases hs : exec i s with
  | next t => exact absurd hs (h t)
  | fault f => simp [exec_fault_congr hin hs]
  | refused q => exact absurd hs (exec_ne_refused i s q)

end Sys2Proof.Safety
end

section
/-! SUPPORT. A step that requests several bytes: each is answered as it would be alone, and what stops is on record. -/

namespace Sys2Proof

/-- The selector table read in both directions (30_encoding R51). -/
theorem decodeOpsel_eq_ok_iff (code : BitVec 3) (i : Instr) : decodeOpsel code = .ok i ↔ code = encodeOpsel i := by
  cases i <;> revert code <;> decide

/-- A byte is an operation exactly when it is the one that carries the operation's selector. -/
theorem decode_eq_ok_iff (byte : Byte) (i : Instr) : decode byte = .ok i ↔ byte = encode i := by
  unfold decode encode
  split
  · next hlt =>
    rw [decodeOpsel_eq_ok_iff]
    constructor
    · intro h
      rw [← h]
      bv_omega
    · rintro rfl
      bv_omega
  · next hge =>
    simp only [reduceCtorEq, false_iff]
    rintro rfl
    bv_omega

@[simp] theorem decode_encode (i : Instr) : decode (encode i) = .ok i :=
  (decode_eq_ok_iff (encode i) i).mpr rfl

theorem encode_injective {i j : Instr} (h : encode i = encode j) : i = j :=
  Except.ok.inj ((decode_encode i).symm.trans ((decode_eq_ok_iff (encode i) j).mpr h))

end Sys2Proof

namespace Sys2Proof.Safety

open Sys2Proof.Machine

variable {i j : Instr} {s s' t u w : State} {byte : Byte} {bytes : List Byte} {stop : Stop}

/-! ### One of several requested bytes -/

theorem answer_encode (i : Instr) (s : State) : answer (encode i) s = exec i s :=
  answer_of_decode (decode_encode i) s

theorem takeAnswer_of_exec_next (h : exec i s = .next t) : takeAnswer (encode i) s = t := by
  simp only [takeAnswer, answer_encode, h]

theorem sameEnvironment_putStops (s : State) (stops : List Stop) : SameEnvironment s (s.putStops stops) :=
  SameEnvironment.refl s

theorem sameOutputs_putStops (i : Instr) (s : State) (stops : List Stop) : SameOutputs i (s.putStops stops) s := by
  cases i <;> simp [SameOutputs]

theorem takeAnswer_sameEnvironment (byte : Byte) (s : State) : SameEnvironment s (takeAnswer byte s) := by
  obtain ⟨i, t, -, hx, ht⟩ | ⟨stops, ht⟩ := takeAnswer_cases byte s
  · exact ht ▸ exec_sameEnvironment hx
  · exact ht ▸ sameEnvironment_putStops s stops

/-- Whatever is not this operation completing leaves its outputs as they are. -/
theorem takeAnswer_sameOutputs (h : byte ≠ encode j ∨ ∀ w, exec j s ≠ .next w) :
    SameOutputs j (takeAnswer byte s) s := by
  obtain ⟨i, t, hd, hx, ht⟩ | ⟨stops, ht⟩ := takeAnswer_cases byte s
  · have hne : i ≠ j := by
      rintro rfl
      exact h.elim (fun hb => hb ((decode_eq_ok_iff byte i).mp hd)) (fun hn => hn t hx)
    exact ht ▸ exec_sameOutputs_of_ne hx hne
  · exact ht ▸ sameOutputs_putStops j s stops

theorem mem_recordStop_stops (x stop : Stop) (s : State) :
    x ∈ (recordStop stop s).stops ↔ x = stop ∨ x ∈ s.stops := by
  unfold recordStop
  split
  · next hmem =>
    have hstop : stop ∈ s.stops := List.contains_iff_mem.mp hmem
    exact ⟨.inr, fun h => h.elim (fun hx => hx ▸ hstop) id⟩
  · simp [or_comm]

theorem mem_recordStops_stops (x : Stop) (stops : List Stop) (s : State) :
    x ∈ (recordStops stops s).stops ↔ x ∈ stops ∨ x ∈ s.stops := by
  induction stops generalizing s with
  | nil => simp [recordStops]
  | cons stop stops ih =>
    simp only [recordStops, ih, mem_recordStop_stops, List.mem_cons]
    tauto

/-- What stops a byte goes on record, and nothing leaves the record. -/
theorem mem_takeAnswer_stops (h : stop ∈ s.stops ∨ stop ∈ stopsOf (answer byte s)) :
    stop ∈ (takeAnswer byte s).stops := by
  unfold takeAnswer
  cases ha : answer byte s with
  | next t =>
    obtain ⟨i, -, hx⟩ := (answer_next_iff byte s t).mp ha
    simpa [ha, stopsOf, exec_stops hx] using h
  | fault f => simpa [ha, stopsOf, mem_recordStops_stops, or_comm] using h
  | refused q => simpa [ha, stopsOf, mem_recordStop_stops, or_comm] using h

/-- What stops a byte depends on the inputs alone. -/
theorem stopsOf_answer_congr (hst : SameEnvironment s t) (byte : Byte) :
    stopsOf (answer byte s) = stopsOf (answer byte t) := by
  cases hd : decode byte with
  | error e => simp only [answer, hd]
  | ok i =>
    rw [answer_of_decode hd, answer_of_decode hd]
    cases hx : exec i s with
    | next u => rw [exec_next_congr (hst.sameUnitInputs i) hx]; rfl
    | fault f => rw [exec_fault_congr (hst.sameUnitInputs i) hx]
    | refused q => exact absurd hx (exec_ne_refused i s q)

/-! ### All of several requested bytes -/

theorem takeAnswers_sameEnvironment (bytes : List Byte) (s : State) : SameEnvironment s (takeAnswers bytes s) :=
  takeAnswers_keeps (P := SameEnvironment s) (fun _ _ _ hs hx => hs.trans (exec_sameEnvironment hx))
    (fun t stops hs => hs.trans (sameEnvironment_putStops t stops)) bytes (SameEnvironment.refl s)

/-- An operation that is not among them, or does not complete, leaves its outputs as they are (20_memory R34). -/
theorem takeAnswers_sameOutputs (h : encode j ∉ bytes ∨ ∀ w, exec j s ≠ .next w) :
    SameOutputs j (takeAnswers bytes s) s := by
  induction bytes generalizing s with
  | nil => exact SameOutputs.refl j s
  | cons b bs ih =>
    have henv : SameEnvironment s (takeAnswer b s) := takeAnswer_sameEnvironment b s
    have hrest : SameOutputs j (takeAnswers bs (takeAnswer b s)) (takeAnswer b s) :=
      ih (h.imp List.not_mem_of_not_mem_cons (exec_ne_next_congr (henv.sameUnitInputs j)))
    have hfirst : SameOutputs j (takeAnswer b s) s :=
      takeAnswer_sameOutputs (h.imp_left fun hnot hb => hnot (hb ▸ List.mem_cons_self))
    exact hrest.trans hfirst

/-- An operation among them that completes on its own drives the outputs it drives on its own (20_memory R34). -/
theorem takeAnswers_drives (hst : SameEnvironment s t) (hx : exec j s = .next w) (hmem : encode j ∈ bytes) :
    SameOutputs j (takeAnswers bytes t) w := by
  induction bytes generalizing t with
  | nil => cases hmem
  | cons b bs ih =>
    by_cases hbs : encode j ∈ bs
    · exact ih (hst.trans (takeAnswer_sameEnvironment b t)) hbs
    · obtain rfl : encode j = b := (List.mem_cons.mp hmem).resolve_right hbs
      have hfirst : takeAnswer (encode j) t = takeOutputs j w t :=
        takeAnswer_of_exec_next (exec_next_congr (hst.sameUnitInputs j) hx)
      have hrest : SameOutputs j (takeAnswers bs (takeAnswer (encode j) t)) (takeAnswer (encode j) t) :=
        takeAnswers_sameOutputs (.inl hbs)
      exact hrest.trans (hfirst ▸ sameOutputs_takeOutputs j w t)

/-- What stops any of them goes on record, and nothing leaves the record. -/
theorem mem_takeAnswers_stops (h : stop ∈ s.stops ∨ ∃ b ∈ bytes, stop ∈ stopsOf (answer b s)) :
    stop ∈ (takeAnswers bytes s).stops := by
  induction bytes generalizing s with
  | nil => simpa [takeAnswers] using h
  | cons b bs ih =>
    refine ih ?_
    obtain hs | ⟨b', hb', hstop⟩ := h
    · exact .inl (mem_takeAnswer_stops (.inl hs))
    · obtain rfl | hbs := List.mem_cons.mp hb'
      · exact .inl (mem_takeAnswer_stops (.inr hstop))
      · exact .inr ⟨b', hbs, stopsOf_answer_congr (takeAnswer_sameEnvironment b s) b' ▸ hstop⟩

/-! ### The step -/

theorem beginStep_sameEnvironment (s : State) : SameEnvironment s (beginStep s) := sameEnvironment_putStops s _

/-- No operation reads the request. -/
theorem exec_putRequest (hx : exec i s = .next t) (bytes : List Byte) :
    exec i (s.putRequest bytes) = .next (t.putRequest bytes) := by
  rw [exec_next_congr (sameUnitInputs_putRequest i s bytes) hx, takeOutputs_putRequest, ← exec_frame hx]

/-- No operation reads the record of stops. -/
theorem exec_beginStep (hx : exec i s = .next t) : exec i (beginStep s) = .next (beginStep t) := by
  rw [exec_next_congr ((beginStep_sameEnvironment s).sameUnitInputs i) hx, takeOutputs_beginStep, ← exec_frame hx]

/-- A step that requests an operation which completes evaluates every requested byte, be it one or several. -/
theorem step_of_completing (hmem : encode i ∈ s.request) (hx : exec i s = .next u) :
    step s = .next (takeAnswers (requestedBytes s.request) (beginStep s)) := by
  have hreq : encode i ∈ requestedBytes s.request := (mem_requestedBytes _ _).mpr hmem
  unfold step runRequest
  split
  · next hnil => simp [hnil] at hreq
  · next b hone =>
    obtain rfl : encode i = b := by simpa [hone] using hreq
    have hbegin := exec_beginStep hx
    rw [hone, takeAnswers, takeAnswers, takeAnswer_of_exec_next hbegin, answer_encode, hbegin]
  · next b b' bs hmany =>
    have hany : (b :: b' :: bs).any (completes s) = true :=
      List.any_eq_true.mpr ⟨encode i, hmany ▸ hreq, by simp only [completes, answer_encode, hx]⟩
    rw [if_pos hany, hmany]

/-- Two operations that end in one state in either order end in it when both are requested. -/
theorem takeAnswers_pair {x : State} (ht : exec i s = .next t) (hu : exec j s = .next u) (hjt : exec j t = .next x)
    (hiu : exec i u = .next x) : takeAnswers (requestedBytes [encode i, encode j]) s = x := by
  simp only [requestedBytes, insertByte]
  split
  · simp only [takeAnswers, takeAnswer_of_exec_next ht, takeAnswer_of_exec_next hjt]
  · split
    · next heq =>
      obtain rfl := encode_injective heq
      obtain rfl := Host.Outcome.next.inj (hjt.symm.trans (exec_again ht))
      simp only [takeAnswers, takeAnswer_of_exec_next ht]
    · simp only [takeAnswers, takeAnswer_of_exec_next hu, takeAnswer_of_exec_next hiu]

end Sys2Proof.Safety
end

section
/-! The statements of the family 20_memory. -/

open Sys2Proof Sys2Proof.Machine Sys2Proof.Safety

/-- Settles O14: the frame of each PACK, which is that of every operation. -/
theorem packChangesOnlyItsCodeword : Obligations.PackChangesOnlyItsCodeword :=
  ⟨fun _ _ => exec_frame, fun _ _ => exec_frame, fun _ _ => exec_frame⟩

/-- Settles O15: what a completing CORRECT puts back into the state is its block with both decoder outputs taken. -/
theorem correctChangesOnlyItsOutputs : Obligations.CorrectChangesOnlyItsOutputs := by
  refine ⟨fun s t h => ?_, fun s t h => ?_, fun s t h => ?_⟩
  · obtain ⟨_, _, _, -, -, rfl⟩ := (exec_correctA_next_iff s t).mp h
    exact ⟨rfl, rfl, rfl⟩
  · obtain ⟨_, _, _, -, -, rfl⟩ := (exec_correctB_next_iff s t).mp h
    exact ⟨rfl, rfl, rfl⟩
  · obtain ⟨_, _, _, -, -, rfl⟩ := (exec_correctC_next_iff s t).mp h
    exact ⟨rfl, rfl, rfl⟩

/-- Settles O16: a second run finds the inputs of the first. -/
theorem repeatingAnOperationChangesNothing : Obligations.RepeatingAnOperationChangesNothing :=
  fun _ _ _ => exec_again

/-- Settles O17: from two states with the same inputs of its unit an operation drives the same outputs. -/
theorem resultsDependOnOwnInputsAlone : Obligations.ResultsDependOnOwnInputsAlone :=
  ⟨fun _ _ _ _ hv hg => exec_sameOutputs_of_sameUnitInputs (i := .packA) ⟨hv, hg⟩,
    fun _ _ _ _ hv hg => exec_sameOutputs_of_sameUnitInputs (i := .packB) ⟨hv, hg⟩,
    fun _ _ _ _ hv hg => exec_sameOutputs_of_sameUnitInputs (i := .packC) ⟨hv, hg⟩,
    fun _ _ _ _ hd => exec_sameOutputs_of_sameUnitInputs (i := .correctA) hd,
    fun _ _ _ _ hd => exec_sameOutputs_of_sameUnitInputs (i := .correctB) hd,
    fun _ _ _ _ hd => exec_sameOutputs_of_sameUnitInputs (i := .correctC) hd⟩

/-- Settles O5: the two operations end in one state in either order, and the step takes one of the two orders. -/
theorem operationsInOneStepDoNotInteract : Obligations.OperationsInOneStepDoNotInteract := by
  intro i j s t u ht hu
  obtain ⟨x, hjt, hiu⟩ := exec_comm ht hu
  have hstep := step_of_completing List.mem_cons_self (exec_putRequest ht [encode i, encode j])
  have alike {k : Instr} {p q : State} (h : exec k p = .next q) :=
    exec_putRequest (exec_beginStep h) [encode i, encode j]
  have hpair := takeAnswers_pair (alike ht) (alike hu) (alike hjt) (alike hiu)
  exact ⟨x, hjt, hiu, hstep.trans (congrArg Host.Outcome.next hpair)⟩

/-- Settles O6: the step evaluates every requested byte, from a state with the inputs of the old one. -/
theorem eachRequestedOperationHasItsOwnResult : Obligations.EachRequestedOperationHasItsOwnResult := by
  intro s i u hmem hx
  have hbegin : SameEnvironment s (beginStep s) := beginStep_sameEnvironment s
  have hrecorded (byte : Byte) (hbyte : byte ∈ s.request) (stop : Stop) (hstop : stop ∈ stopsOf (answer byte s)) :
      stop ∈ (takeAnswers (requestedBytes s.request) (beginStep s)).stops :=
    mem_takeAnswers_stops
      (.inr ⟨byte, (mem_requestedBytes _ _).mpr hbyte, stopsOf_answer_congr hbegin byte ▸ hstop⟩)
  refine ⟨_, step_of_completing hmem hx, hbegin.trans (takeAnswers_sameEnvironment _ _), ?_, ?_, ?_, ?_⟩
  · intro j w hj hw
    exact takeAnswers_drives hbegin hw ((mem_requestedBytes _ _).mpr hj)
  · intro j hj
    have hstay : encode j ∉ requestedBytes s.request ∨ ∀ w, exec j (beginStep s) ≠ .next w :=
      hj.imp (mt (mem_requestedBytes _ _).mp) (exec_ne_next_congr (hbegin.sameUnitInputs j))
    exact (takeAnswers_sameOutputs hstay).trans (sameOutputs_putStops j s _)
  · intro j f hj hf stop hstop
    exact hrecorded _ hj stop (by rwa [answer_encode, hf])
  · intro byte e hbyte hdec
    exact hrecorded _ hbyte _ (by simp only [answer, hdec, stopsOf, List.mem_singleton])

end

section
/-! SUPPORT. What the family 30_encoding rests on: the selector read in both directions, the fields of a codeword bit
by bit, and the Hamming indices of a value-syndrome order, which the masks and the position map are read from. -/

namespace Sys2Proof

/-- The operation a unit performs for a variant: the row of the selector table with that VCODE and OP (30_encoding R51). -/
def operationOf : Variant → CodecUnit → Instr
  | .A, .encoder => .packA
  | .A, .decoder => .correctA
  | .B, .encoder => .packB
  | .B, .decoder => .correctB
  | .C, .encoder => .packC
  | .C, .decoder => .correctC

@[simp] theorem operationOf_variant_unit (i : Instr) : operationOf i.variant i.unit = i := by
  cases i <;> rfl

@[simp] theorem variant_operationOf (v : Variant) (u : CodecUnit) : (operationOf v u).variant = v := by
  cases v <;> cases u <;> rfl

@[simp] theorem unit_operationOf (v : Variant) (u : CodecUnit) : (operationOf v u).unit = u := by
  cases v <;> cases u <;> rfl

theorem decodeOpsel_encodeOpsel (i : Instr) : decodeOpsel (encodeOpsel i) = .ok i :=
  (decodeOpsel_eq_ok_iff _ i).mpr rfl

theorem encodeOpsel_eq_vcode_append_op (i : Instr) : encodeOpsel i = i.variant.vcode ++ i.unit.op := by
  cases i <;> rfl

/-- Every selector but the two reserved ones is an operation (30_encoding R51, R52). -/
theorem exists_decodeOpsel_eq_ok {code : BitVec 3} (h6 : code ≠ 0b110) (h7 : code ≠ 0b111) :
    ∃ i, decodeOpsel code = .ok i := by
  have hrow : code ∈ [Instr.packA, .correctA, .packB, .correctB, .packC, .correctC].map encodeOpsel := by
    revert code
    decide
  obtain ⟨i, -, rfl⟩ := List.mem_map.mp hrow
  exact ⟨i, decodeOpsel_encodeOpsel i⟩

end Sys2Proof

namespace Sys2Proof.Machine

variable {n : Nat}

/-- The answer to a byte that decodes to nothing is its refusal. -/
theorem answer_of_decode_error {byte : Byte} {e : DecodeError} (h : decode byte = .error e) (s : State) :
    answer byte s = .refused (refusalOf e) := by
  simp only [answer, h]

theorem ErrCount.toBits_injective {e e' : ErrCount} (h : e.toBits = e'.toBits) : e = e' := by
  revert h
  cases e <;> cases e' <;> decide

/-! ### The fields of a codeword -/

theorem getLsbD_tagField (w : Word n) : (tagField w).getLsbD 0 = w.getLsbD 0 := by
  simp [tagField, Config.posTag]

theorem getLsbD_parityField (w : Word n) : (parityField w).getLsbD 0 = w.getLsbD 1 := by
  simp [parityField, Config.posPar]

theorem getLsbD_checkField {r i : Nat} (w : Word n) (hi : i < r) :
    (checkField r w).getLsbD i = w.getLsbD (i + 2) := by
  simp [checkField, Config.posChk, hi, Nat.add_comm]

theorem getLsbD_valueField {r vw j : Nat} (w : Word n) (hj : j < vw) :
    (valueField r vw w).getLsbD j = w.getLsbD (r + 2 + j) := by
  simp [valueField, Config.posVal, hj]

/-- The fields of a codeword are ranges of its bits, whatever the widths (30_encoding R40). -/
theorem codewordFields_getLsbD (r vw : Nat) (w : Word n) :
    (tagField w).getLsbD 0 = w.getLsbD 0 ∧ (parityField w).getLsbD 0 = w.getLsbD 1 ∧
      (∀ i < r, (checkField r w).getLsbD i = w.getLsbD (i + 2)) ∧
      (∀ j < vw, (valueField r vw w).getLsbD j = w.getLsbD (r + 2 + j)) :=
  ⟨getLsbD_tagField w, getLsbD_parityField w, fun _ => getLsbD_checkField w, fun _ => getLsbD_valueField w⟩

/-- The lowest `k` bits alone: `(1 << k) - 1`. -/
theorem getLsbD_one_shiftLeft_sub_one {k : Nat} (hk : k < n) (i : Nat) :
    ((1#n <<< k) - 1#n).getLsbD i = decide (i < k) := by
  have hpow : 1#n <<< k = BitVec.ofNat n (2 ^ k) := by
    apply BitVec.eq_of_toNat_eq
    rw [← BitVec.twoPow_eq, BitVec.toNat_twoPow, BitVec.toNat_ofNat]
  rw [hpow, BitVec.ofNat_sub_ofNat_of_le _ _ (Nat.one_lt_two_pow (by omega)) Nat.one_le_two_pow,
    BitVec.getLsbD_ofNat, Nat.testBit_two_pow_sub_one]
  by_cases hi : i < k
  · simp [hi, show i < n by omega]
  · simp [hi]

/-- The check mask holds the check field's positions (30_encoding R40). -/
theorem getLsbD_checkMask {r p : Nat} (hr : r < n) (hp : p < n) :
    (checkMask n r).getLsbD p = (decide (2 ≤ p) && decide (p ≤ r + 1)) := by
  rw [checkMask, BitVec.getLsbD_shiftLeft, getLsbD_one_shiftLeft_sub_one hr, Bool.eq_iff_iff]
  simp only [Bool.and_eq_true, Bool.not_eq_true', decide_eq_true_eq, decide_eq_false_iff_not]
  rw [Config.posChk]
  omega

/-! ### The Hamming indices -/

theorem mem_reservedSyndromes (r s : Nat) : s ∈ reservedSyndromes r ↔ (∃ i < r, 2 ^ i = s) ∨ s = 3 := by
  simp [reservedSyndromes]

theorem mem_valueSyndromes (r s : Nat) :
    s ∈ valueSyndromes r ↔ s < 2 ^ r ∧ s ≠ 0 ∧ s ≠ 3 ∧ ∀ i < r, 2 ^ i ≠ s := by
  have hres : s ∉ reservedSyndromes r ↔ s ≠ 3 ∧ ∀ i < r, 2 ^ i ≠ s := by
    rw [mem_reservedSyndromes]
    push Not
    exact and_comm
  simp [valueSyndromes, hres]

theorem two_pow_ne_three (i : Nat) : 2 ^ i ≠ 3 := by
  rcases i with _ | i
  · decide
  · rw [Nat.pow_succ]
    omega

/-- The check, parity, tag and value fields of the variants fill the codeword. -/
theorem posVal_add_length_valueSyndromes (v : Variant) : Config.posVal v.r + (valueSyndromes v.r).length = v.n := by
  cases v <;> decide

section
variable {r : Nat} {order : List Nat} {p q s : Nat}

@[simp] theorem hammingIndex_tag : hammingIndex r order 0 = some 3 := rfl

@[simp] theorem hammingIndex_parity : hammingIndex r order 1 = none := rfl

theorem hammingIndex_check {i : Nat} (hi : i < r) : hammingIndex r order (i + 2) = some (2 ^ i) := by
  simp [hammingIndex, Config.posTag, Config.posPar, Config.posChk, Config.posVal, hi]

theorem hammingIndex_value (j : Nat) : hammingIndex r order (r + 2 + j) = order[j]? := by
  simp [hammingIndex, Config.posTag, Config.posPar, Config.posVal, show r + 2 + j ≠ 1 by omega]

/-- The four fields a position can lie in (30_encoding R38). -/
theorem position_cases (r p : Nat) : p = 0 ∨ p = 1 ∨ (∃ i < r, p = i + 2) ∨ ∃ j, p = r + 2 + j := by
  by_cases hval : r + 2 ≤ p
  · exact .inr (.inr (.inr ⟨p - (r + 2), by omega⟩))
  · by_cases hchk : 2 ≤ p
    · exact .inr (.inr (.inl ⟨p - 2, by omega, by omega⟩))
    · omega

/-- A position with a Hamming index is the tag, a check bit or a value bit, and its index is of that kind. -/
theorem hammingIndex_eq_some_iff :
    hammingIndex r order p = some s ↔
      (p = 0 ∧ s = 3) ∨ (∃ i < r, p = i + 2 ∧ s = 2 ^ i) ∨ ∃ j, p = r + 2 + j ∧ order[j]? = some s := by
  constructor
  · intro h
    obtain rfl | rfl | ⟨i, hi, rfl⟩ | ⟨j, rfl⟩ := position_cases r p
    · exact .inl ⟨rfl, by simpa using h.symm⟩
    · simp at h
    · rw [hammingIndex_check hi] at h
      exact .inr (.inl ⟨i, hi, rfl, (Option.some.inj h).symm⟩)
    · exact .inr (.inr ⟨j, rfl, (hammingIndex_value j).symm.trans h⟩)
  · rintro (⟨rfl, rfl⟩ | ⟨i, hi, rfl, rfl⟩ | ⟨j, rfl, hj⟩)
    · rfl
    · exact hammingIndex_check hi
    · rw [hammingIndex_value, hj]

/-- The entries of an order are neither 3 nor a power of two, and below `2^r`. -/
theorem ValidOrder.entry (h : ValidOrder r order) {j : Nat} (hj : order[j]? = some s) :
    s < 2 ^ r ∧ s ≠ 0 ∧ s ≠ 3 ∧ ∀ i < r, 2 ^ i ≠ s :=
  (mem_valueSyndromes r s).mp (h.mem_iff.mp (List.mem_of_getElem? hj))

theorem ValidOrder.entry_ne_three (h : ValidOrder r order) {j : Nat} (hj : order[j]? = some s) : s ≠ 3 := by
  obtain ⟨-, -, h3, -⟩ := ValidOrder.entry h hj
  exact h3

theorem ValidOrder.entry_ne_two_pow (h : ValidOrder r order) {i j : Nat} (hj : order[j]? = some s) (hi : i < r) :
    s ≠ 2 ^ i := by
  obtain ⟨-, -, -, hpow⟩ := ValidOrder.entry h hj
  exact (hpow i hi).symm

theorem ValidOrder.nodup (h : ValidOrder r order) : order.Nodup :=
  h.nodup_iff.mpr (List.nodup_range.filter _)

/-- No two positions have one Hamming index (30_encoding R41, R49). -/
theorem ValidOrder.hammingIndex_inj (h : ValidOrder r order) (hp : hammingIndex r order p = some s)
    (hq : hammingIndex r order q = some s) : p = q := by
  obtain ⟨rfl, rfl⟩ | ⟨i, hi, rfl, rfl⟩ | ⟨j, rfl, hj⟩ := hammingIndex_eq_some_iff.mp hp <;>
    obtain ⟨rfl, hs⟩ | ⟨i', hi', rfl, hs⟩ | ⟨j', rfl, hj'⟩ := hammingIndex_eq_some_iff.mp hq
  · rfl
  · exact absurd hs.symm (two_pow_ne_three i')
  · exact absurd rfl (ValidOrder.entry_ne_three h hj')
  · exact absurd hs (two_pow_ne_three i)
  · rw [Nat.pow_right_injective (Nat.le_refl 2) hs]
  · exact absurd rfl (ValidOrder.entry_ne_two_pow h hj' hi)
  · exact absurd hs (ValidOrder.entry_ne_three h hj)
  · exact absurd hs (ValidOrder.entry_ne_two_pow h hj hi')
  · obtain ⟨hlt, -⟩ := List.getElem?_eq_some_iff.mp hj
    rw [(List.getElem?_inj hlt (ValidOrder.nodup h)).mp (hj.trans hj'.symm)]

/-- Every nonzero syndrome is the Hamming index of a position of the codeword (30_encoding R49). -/
theorem ValidOrder.exists_position (h : ValidOrder r order) (hn : Config.posVal r + order.length = n)
    (hs : s ≠ 0) (hlt : s < 2 ^ r) : ∃ p < n, hammingIndex r order p = some s := by
  rw [Config.posVal] at hn
  by_cases htag : s = 3
  · exact ⟨0, by omega, by rw [htag]; rfl⟩
  · by_cases hchk : ∃ i < r, 2 ^ i = s
    · obtain ⟨i, hi, rfl⟩ := hchk
      exact ⟨i + 2, by omega, hammingIndex_check hi⟩
    · have hmem : s ∈ order :=
        h.mem_iff.mpr ((mem_valueSyndromes r s).mpr ⟨hlt, hs, htag, fun i hi hpow => hchk ⟨i, hi, hpow⟩⟩)
      obtain ⟨j, hj⟩ := List.getElem?_of_mem hmem
      obtain ⟨hjlt, -⟩ := List.getElem?_eq_some_iff.mp hj
      exact ⟨r + 2 + j, by omega, (hammingIndex_value j).trans hj⟩

/-- The position map inverts the Hamming index (30_encoding R49). -/
theorem ValidOrder.positionOf_eq_some_iff (h : ValidOrder r order) :
    positionOf n r order s = some p ↔ p < n ∧ hammingIndex r order p = some s := by
  simp only [positionOf, List.find?_range_eq_some, beq_iff_eq, List.mem_range]
  constructor
  · rintro ⟨hp, hlt, -⟩
    exact ⟨hlt, hp⟩
  · rintro ⟨hlt, hp⟩
    refine ⟨hp, hlt, fun q hq => ?_⟩
    have hne : hammingIndex r order q ≠ some s := fun hs => absurd (ValidOrder.hammingIndex_inj h hs hp) (by omega)
    simpa using hne

/-! ### What the covering masks hold -/

theorem isDataPosition_eq_true_iff : isDataPosition r p = true ↔ p = 0 ∨ r + 2 ≤ p := by
  simp only [isDataPosition, Bool.or_eq_true, beq_iff_eq, decide_eq_true_eq]
  rfl

/-- A data position's index has no check bit's index and fits the syndrome (30_encoding R41(d)). -/
theorem ValidOrder.exists_index_of_isDataPosition (h : ValidOrder r order) (hr : 2 ≤ r)
    (hn : Config.posVal r + order.length = n) (hp : p < n) (hdata : isDataPosition r p = true) :
    ∃ s, hammingIndex r order p = some s ∧ s < 2 ^ r ∧ s ≠ 0 ∧ ∀ i < r, 2 ^ i ≠ s := by
  rw [Config.posVal] at hn
  obtain rfl | hval := isDataPosition_eq_true_iff.mp hdata
  · have hfit : 2 ^ 2 ≤ 2 ^ r := Nat.pow_le_pow_right (by decide) hr
    exact ⟨3, rfl, by omega, by decide, fun i _ => two_pow_ne_three i⟩
  · obtain ⟨j, rfl⟩ := Nat.exists_eq_add_of_le hval
    have hj : order[j]? = some order[j] := List.getElem?_eq_getElem (by omega)
    obtain ⟨hlt, h0, -, hpow⟩ := ValidOrder.entry h hj
    exact ⟨order[j], (hammingIndex_value j).trans hj, hlt, h0, hpow⟩

/-- A mask holds a data position exactly where its Hamming index has the mask's bit (30_encoding R44). -/
theorem covers_of_hammingIndex (hdata : isDataPosition r p = true) (hs : hammingIndex r order p = some s) (i : Nat) :
    covers r order i p = s.testBit i := by
  simp [covers, hdata, hs]

/-- A syndrome that is neither 0 nor a power of two has two 1 bits. -/
theorem exists_two_testBit (hlt : s < 2 ^ r) (h0 : s ≠ 0) (hpow : ∀ i < r, 2 ^ i ≠ s) :
    ∃ i < r, ∃ j < r, i ≠ j ∧ s.testBit i = true ∧ s.testBit j = true := by
  have hbelow {i : Nat} (hi : s.testBit i = true) : i < r :=
    (Nat.pow_lt_pow_iff_right (by decide)).mp ((Nat.ge_two_pow_of_testBit hi).trans_lt hlt)
  obtain ⟨i, hi⟩ := Nat.exists_testBit_of_ne_zero h0
  by_contra hnone
  refine hpow i (hbelow hi) (Nat.eq_of_testBit_eq fun j => ?_)
  rw [Nat.testBit_two_pow]
  by_cases hij : i = j
  · subst hij
    simp [hi]
  · have hj : s.testBit j ≠ true := fun hj => hnone ⟨i, hbelow hi, j, hbelow hj, hij, hi, hj⟩
    simp [hij, hj]

/-- Two numbers below `2^r` with the same lowest `r` bits are equal. -/
theorem eq_of_testBit_below {s t : Nat} (hs : s < 2 ^ r) (ht : t < 2 ^ r)
    (h : ∀ i < r, s.testBit i = t.testBit i) : s = t := by
  refine Nat.eq_of_testBit_eq fun i => ?_
  by_cases hi : i < r
  · exact h i hi
  · have hpow : 2 ^ r ≤ 2 ^ i := Nat.pow_le_pow_right (by decide) (by omega)
    rw [Nat.testBit_lt_two_pow (hs.trans_le hpow), Nat.testBit_lt_two_pow (ht.trans_le hpow)]

theorem two_le_length_filter_range {f : Nat → Bool} {i j : Nat} (hi : i < r) (hj : j < r) (hij : i ≠ j)
    (hfi : f i = true) (hfj : f j = true) : 2 ≤ ((List.range r).filter f).length := by
  have hsub : [i, j] ⊆ (List.range r).filter f := by
    simp [hi, hj, hfi, hfj]
  exact (List.subperm_of_subset (by simpa using hij) hsub).length_le

/-- The column of the masks at a position of the codeword. -/
theorem masks_ofOrder_map_getLsbD (hp : p < n) :
    ((Tables.ofOrder n r order).masks.map fun m => m.getLsbD p) =
      (List.range r).map fun i => covers r order i p := by
  simp only [Tables.ofOrder, List.map_map, Function.comp_def, getLsbD_coveringMask, hp, decide_true, Bool.true_and]

/-- How many masks hold a position of the codeword. -/
theorem length_filter_masks_ofOrder (hp : p < n) :
    ((Tables.ofOrder n r order).masks.filter fun m => m.getLsbD p).length =
      ((List.range r).filter fun i => covers r order i p).length := by
  simp only [Tables.ofOrder, List.filter_map, List.length_map, Function.comp_def, getLsbD_coveringMask, hp,
    decide_true, Bool.true_and]

/-- No mask holds a check bit or the parity bit (30_encoding R45(a)). -/
theorem and_checkAndParityBits_of_mem_masks (hr : r + 1 < n) :
    ∀ m ∈ (Tables.ofOrder n r order).masks, m &&& (((1#n <<< (r + 1)) - 1#n) <<< 1) = 0 := by
  simp only [Tables.ofOrder, List.mem_map, List.mem_range]
  rintro m ⟨i, -, rfl⟩
  refine BitVec.eq_of_getLsbD_eq fun p hp => ?_
  rw [BitVec.getLsbD_and, getLsbD_coveringMask, BitVec.getLsbD_shiftLeft, getLsbD_one_shiftLeft_sub_one hr]
  cases hdata : isDataPosition r p with
  | false => simp [covers, hdata]
  | true =>
    have hout : p < 1 ∨ ¬ p - 1 < r + 1 := by
      rw [isDataPosition_eq_true_iff] at hdata
      omega
    rcases hout with h | h <;> simp [h]

/-- The tag is in masks 0 and 1 alone (30_encoding R45(b)). -/
theorem masks_ofOrder_map_tag (hn : 0 < n) :
    ((Tables.ofOrder n r order).masks.map fun m => m.getLsbD 0) = (List.range r).map fun i => decide (i < 2) := by
  rw [masks_ofOrder_map_getLsbD hn]
  refine List.map_congr_left fun i _ => ?_
  rw [covers_of_hammingIndex rfl hammingIndex_tag]
  exact Nat.testBit_two_pow_sub_one 2 i

/-- At least two masks hold a data position (30_encoding R45(c)). -/
theorem ValidOrder.two_le_length_filter_masks (h : ValidOrder r order) (hr : 2 ≤ r)
    (hn : Config.posVal r + order.length = n) (hp : p < n) (hdata : isDataPosition r p = true) :
    2 ≤ ((Tables.ofOrder n r order).masks.filter fun m => m.getLsbD p).length := by
  obtain ⟨s, hs, hlt, h0, hpow⟩ := ValidOrder.exists_index_of_isDataPosition h hr hn hp hdata
  obtain ⟨i, hi, j, hj, hij, hbi, hbj⟩ := exists_two_testBit hlt h0 hpow
  rw [length_filter_masks_ofOrder hp]
  exact two_le_length_filter_range hi hj hij ((covers_of_hammingIndex hdata hs i).trans hbi)
    ((covers_of_hammingIndex hdata hs j).trans hbj)

/-- Each data position is held by its own set of masks (30_encoding R45(d)). -/
theorem ValidOrder.masks_map_getLsbD_inj (h : ValidOrder r order) (hr : 2 ≤ r)
    (hn : Config.posVal r + order.length = n) (hp : p < n) (hq : q < n)
    (hdp : isDataPosition r p = true) (hdq : isDataPosition r q = true)
    (heq : ((Tables.ofOrder n r order).masks.map fun m => m.getLsbD p) =
      (Tables.ofOrder n r order).masks.map fun m => m.getLsbD q) : p = q := by
  obtain ⟨s, hs, hslt, -, -⟩ := ValidOrder.exists_index_of_isDataPosition h hr hn hp hdp
  obtain ⟨t, ht, htlt, -, -⟩ := ValidOrder.exists_index_of_isDataPosition h hr hn hq hdq
  rw [masks_ofOrder_map_getLsbD hp, masks_ofOrder_map_getLsbD hq, List.map_inj_left] at heq
  have hst : s = t := eq_of_testBit_below hslt htlt fun i hi => by
    rw [← covers_of_hammingIndex hdp hs, ← covers_of_hammingIndex hdq ht, heq i (List.mem_range.mpr hi)]
  exact ValidOrder.hammingIndex_inj h hs (hst ▸ ht)

/-- What 30_encoding R45 says of the covering masks of a variant. -/
def CoveringMaskLaws (n r : Nat) (masks : List (Word n)) : Prop :=
  (∀ m ∈ masks, m &&& (((1#n <<< (r + 1)) - 1#n) <<< 1) = 0) ∧
  (masks.map fun m => m.getLsbD 0) = (List.range r).map (fun i => decide (i < 2)) ∧
  (∀ p < n, r + 2 ≤ p → 2 ≤ (masks.filter fun m => m.getLsbD p).length) ∧
  (∀ p < n, ∀ q < n, isDataPosition r p = true → isDataPosition r q = true →
    (masks.map fun m => m.getLsbD p) = (masks.map fun m => m.getLsbD q) → p = q) ∧
  (∀ p < n, isDataPosition r p = true → (masks.filter fun m => m.getLsbD p).length ≠ 1)

/-- R45 holds of the masks of every value-syndrome order. -/
theorem ValidOrder.coveringMaskLaws (h : ValidOrder r order) (hr : 2 ≤ r) (hn : Config.posVal r + order.length = n) :
    CoveringMaskLaws n r (Tables.ofOrder n r order).masks := by
  have hwidth : r + 2 ≤ n := hn ▸ Nat.le_add_right _ _
  have htwo {p : Nat} (hp : p < n) (hdata : isDataPosition r p = true) :=
    ValidOrder.two_le_length_filter_masks h hr hn hp hdata
  refine ⟨and_checkAndParityBits_of_mem_masks (by omega), masks_ofOrder_map_tag (by omega), fun p hp hval => ?_,
    fun p hp q hq => ValidOrder.masks_map_getLsbD_inj h hr hn hp hq, fun p hp hdata => ?_⟩
  · exact htwo hp (isDataPosition_eq_true_iff.mpr (.inr hval))
  · have := htwo hp hdata
    omega

end

/-! ### The default order -/

theorem tablesA_eq_ofOrder : tablesA = Tables.ofOrder 8 3 (valueSyndromes 3) := by decide

theorem tablesB_eq_ofOrder : tablesB = Tables.ofOrder 16 4 (valueSyndromes 4) := by decide

theorem tablesC_eq_ofOrder : tablesC = Tables.ofOrder 64 6 (valueSyndromes 6) := by decide

/-- Of the reserved syndromes above `s` only the check bits' count, since 3 is not above it (30_encoding R42). -/
theorem valuePosition_eq_add_powers {r s : Nat} (hs : 3 ≤ s) :
    valuePosition r s = s + ((List.range r).filter fun i => decide (s < 2 ^ i)).length := by
  have h3 : ¬ s < 3 := by omega
  simp [valuePosition, reservedSyndromes, List.filter_map, Function.comp_def, h3]

/-- The value syndromes lie above the reserved 1, 2 and 3. -/
theorem three_le_of_mem_valueSyndromes {r s : Nat} (hr : 2 ≤ r) (hs : s ∈ valueSyndromes r) : 3 ≤ s := by
  obtain ⟨-, h0, -, hpow⟩ := (mem_valueSyndromes r s).mp hs
  have h1 : s ≠ 1 := (hpow 0 (by omega)).symm
  have h2 : s ≠ 2 := (hpow 1 (by omega)).symm
  omega

/-- R45 holds of the masks of the default order. -/
theorem coveringMaskLaws_default (v : Variant) :
    CoveringMaskLaws v.n v.r (Tables.ofOrder v.n v.r (valueSyndromes v.r)).masks :=
  ValidOrder.coveringMaskLaws (List.Perm.refl _) (by cases v <;> decide) (posVal_add_length_valueSyndromes v)

/-- The two closed forms of a value syndrome's position, from the Hamming index at that position. -/
theorem positionOf_ascending {r : Nat} (hr : 2 ≤ r)
    (hindex : ∀ s ∈ valueSyndromes r, valuePosition r s < n ∧
      hammingIndex r (valueSyndromes r) (valuePosition r s) = some s) :
    ∀ s ∈ valueSyndromes r, positionOf n r (valueSyndromes r) s = some (valuePosition r s) ∧
      valuePosition r s = s + ((List.range r).filter fun i => decide (s < 2 ^ i)).length :=
  fun s hs => ⟨(ValidOrder.positionOf_eq_some_iff (List.Perm.refl _)).mpr (hindex s hs),
    valuePosition_eq_add_powers (three_le_of_mem_valueSyndromes hr hs)⟩

end Sys2Proof.Machine
end

section
/-! The statements of the family 30_encoding. -/

open Sys2Proof Sys2Proof.Machine

/-- Settles O38: the three kinds of positions have indices of three kinds, and together these are all nonzero syndromes. -/
theorem everyOrderGivesEachSyndromeOnePosition : Obligations.EveryOrderGivesEachSyndromeOnePosition := by
  intro v order h
  have hn : Config.posVal v.r + order.length = v.n := h.length_eq ▸ posVal_add_length_valueSyndromes v
  refine ⟨hammingIndex_tag, hammingIndex_parity, fun i => hammingIndex_check, fun s h1 hlt => ?_⟩
  obtain ⟨p, hp, hs⟩ := ValidOrder.exists_position h hn (Nat.pos_iff_ne_zero.mp h1) hlt
  exact ⟨p, hp, hs, fun q _ hq => ValidOrder.hammingIndex_inj h hq hs⟩

/-- Settles O1: the selector table is read backwards, and each row is named by its variant and unit. -/
theorem selectorTableNamesSixOperations : Obligations.SelectorTableNamesSixOperations :=
  ⟨decodeOpsel_encodeOpsel .packA, decodeOpsel_encodeOpsel .correctA, decodeOpsel_encodeOpsel .packB,
    decodeOpsel_encodeOpsel .correctB, decodeOpsel_encodeOpsel .packC, decodeOpsel_encodeOpsel .correctC,
    ⟨rfl, rfl, rfl⟩, ⟨rfl, rfl⟩, encodeOpsel_eq_vcode_append_op,
    fun v u => ⟨operationOf v u, ⟨variant_operationOf v u, unit_operationOf v u⟩, by
      rintro j ⟨rfl, rfl⟩
      exact (operationOf_variant_unit j).symm⟩⟩

/-- Settles O2: the selector's byte read in both directions. -/
theorem decodingInvertsEncoding : Obligations.DecodingInvertsEncoding :=
  ⟨decode_encode, decode_eq_ok_iff⟩

/-- Settles O3: a step that requests one byte is its answer, and a reserved byte's answer is its refusal. -/
theorem reservedSelectorsAreRefused : Obligations.ReservedSelectorsAreRefused := by
  refine ⟨fun s code hcode hreq => ?_, fun code h6 h7 => ?_, fun v => ?_⟩
  · have hdec : decode (code.setWidth 8) = .error (.reservedSelector code) := by
      rcases hcode with rfl | rfl <;> rfl
    rw [step_of_request_singleton hreq, answer_of_decode_error hdec, refusalOf]
  · exact exists_decodeOpsel_eq_ok h6 h7
  · cases v <;> decide

/-- Settles O32: the three encodings, one by one. -/
theorem errorCountsAreEncodedBelowThree : Obligations.ErrorCountsAreEncodedBelowThree :=
  ⟨rfl, rfl, rfl, fun e => by cases e <;> decide, fun _ _ => ErrCount.toBits_injective⟩

/-- Settles O33: the fields and the check mask, read bit by bit at the widths of each variant. -/
theorem codewordFieldsAreBitRanges : Obligations.CodewordFieldsAreBitRanges :=
  ⟨⟨codewordFields_getLsbD 3 3, fun _ => getLsbD_checkMask (by decide)⟩,
    ⟨codewordFields_getLsbD 4 10, fun _ => getLsbD_checkMask (by decide)⟩,
    ⟨codewordFields_getLsbD 6 56, fun _ => getLsbD_checkMask (by decide)⟩,
    rfl, rfl, rfl⟩

/-- Settles O34: the regenerated masks are those of the tables regenerated from the ascending order; the listed
positions are the 1 bits of the constants. -/
theorem coveringMasksAreTheListedOnes : Obligations.CoveringMasksAreTheListedOnes :=
  ⟨rfl, (congrArg Tables.masks tablesA_eq_ofOrder).symm, by decide,
    rfl, (congrArg Tables.masks tablesB_eq_ofOrder).symm, by decide,
    rfl, (congrArg Tables.masks tablesC_eq_ofOrder).symm, by decide⟩

/-- Settles O35: the generator, evaluated for the ascending order. -/
theorem tablesComeFromTheAscendingOrder : Obligations.TablesComeFromTheAscendingOrder :=
  ⟨by decide, tablesA_eq_ofOrder, by decide, tablesB_eq_ofOrder, by decide, tablesC_eq_ofOrder⟩

/-- Settles O36: the Hamming index at the closed form's position is the syndrome, and no other position has it. -/
theorem valuePositionsFollowTheClosedForm : Obligations.ValuePositionsFollowTheClosedForm :=
  ⟨positionOf_ascending (by decide) (by decide), positionOf_ascending (by decide) (by decide),
    positionOf_ascending (by decide) (by decide), by decide, by decide, by decide, by decide, by decide, by decide,
    by decide⟩

/-- Settles O37: the masks are regenerated from a valid order, and what they hold of a position is its Hamming index. -/
theorem coveringMasksExcludeCheckAndParityBits : Obligations.CoveringMasksExcludeCheckAndParityBits := by
  unfold Obligations.CoveringMasksExcludeCheckAndParityBits
  rw [tablesA_eq_ofOrder, tablesB_eq_ofOrder, tablesC_eq_ofOrder]
  exact ⟨coveringMaskLaws_default .A, coveringMaskLaws_default .B, coveringMaskLaws_default .C⟩

end

section
/-! SUPPORT. What the families 40_encoder and 41_decoder share: check bits and the syndrome are linear, a packed word field
by field, and what a single bit adds to the syndrome. -/

namespace Sys2Proof.Machine

variable {n r vw : Nat}

/-! ### Words and their fields -/

/-- Words that agree on the tag, the parity bit, the check field and the value field are equal (30_encoding R38). -/
theorem eq_of_getLsbD_fields (hn : r + 2 + vw = n) {x y : Word n} (htag : x.getLsbD 0 = y.getLsbD 0)
    (hpar : x.getLsbD 1 = y.getLsbD 1) (hchk : ∀ i < r, x.getLsbD (i + 2) = y.getLsbD (i + 2))
    (hval : ∀ j < vw, x.getLsbD (r + 2 + j) = y.getLsbD (r + 2 + j)) : x = y := by
  refine BitVec.eq_of_getLsbD_eq fun p hp => ?_
  obtain rfl | rfl | ⟨i, hi, rfl⟩ | ⟨j, rfl⟩ := position_cases r p
  · exact htag
  · exact hpar
  · exact hchk i hi
  · exact hval j (by omega)

/-- The bits 1 to r + 1 of a word: the parity bit and the check field. -/
theorem getLsbD_checkAndParityBits (hr : r + 1 < n) (p : Nat) :
    (((1#n <<< (r + 1)) - 1#n) <<< 1).getLsbD p = (decide (1 ≤ p) && decide (p ≤ r + 1)) := by
  rw [BitVec.getLsbD_shiftLeft, getLsbD_one_shiftLeft_sub_one hr, Bool.eq_iff_iff]
  simp only [Bool.and_eq_true, Bool.not_eq_true', decide_eq_true_eq, decide_eq_false_iff_not]
  omega

/-- The parity of a word is one of its bits and the parity of the others. -/
theorem parity_eq_getLsbD_xor (w : Word n) {p : Nat} (hp : p < n) :
    parity w = (w.getLsbD p ^^ parity (w &&& ~~~(1#n <<< p))) := by
  have hsplit : w = (1#n <<< p &&& w) ^^^ (w &&& ~~~(1#n <<< p)) := by
    refine BitVec.eq_of_getLsbD_eq fun i hi => ?_
    simp only [BitVec.getLsbD_xor, BitVec.getLsbD_and, BitVec.getLsbD_not, hi, decide_true, Bool.true_and]
    cases w.getLsbD i <;> cases (1#n <<< p).getLsbD i <;> rfl
  calc parity w = parity ((1#n <<< p &&& w) ^^^ (w &&& ~~~(1#n <<< p))) := congrArg parity hsplit
    _ = _ := by rw [parity_xor, parity_one_shiftLeft_and w hp]

/-- The parity of a bit placed inside the word is that bit. -/
theorem parity_bitAt (b : Bool) {p : Nat} (hp : p < n) : parity (bitAt n b p) = b := by
  cases b with
  | false => rw [bitAt_false, parity_zero]
  | true =>
    have hbit : bitAt n true p = 1#n <<< p := by
      refine BitVec.eq_of_getLsbD_eq fun i _ => ?_
      rw [getLsbD_bitAt, getLsbD_one_shiftLeft, Bool.and_true]
    rw [hbit, parity_one_shiftLeft hp]

theorem bitAt_xor (b c : Bool) (p : Nat) : bitAt n (b ^^ c) p = bitAt n b p ^^^ bitAt n c p := by
  refine BitVec.eq_of_getLsbD_eq fun i hi => ?_
  simp only [BitVec.getLsbD_xor, getLsbD_bitAt, hi, decide_true, Bool.true_and, Bool.and_xor_distrib_left]

/-! ### Check bits -/

/-- Check bit `i` is the parity under mask `i` (40_encoder R56). -/
theorem getLsbD_checkBits_of_mask {masks : List (Word n)} {i : Nat} {m : Word n} (hm : masks[i]? = some m)
    (hi : i + 2 < n) (x : Word n) : (checkBits masks x).getLsbD (i + 2) = parity (x &&& m) := by
  rw [checkBits, getLsbD_checkBitsFrom, Nat.zero_add, Nat.add_sub_cancel, hm]
  simp [hi]

/-- Outside the check field the check bits are 0 (40_encoder R56). -/
theorem getLsbD_checkBits_outside (masks : List (Word n)) (x : Word n) {p : Nat}
    (hp : p < 2 ∨ masks.length + 1 < p) : (checkBits masks x).getLsbD p = false := by
  rw [checkBits, getLsbD_checkBitsFrom]
  rcases hp with hp | hp
  · simp [show ¬ 0 + 2 ≤ p by omega]
  · simp [show masks.length ≤ p - 2 by omega]

/-- The check bits are linear (40_encoder R64). -/
theorem checkBits_xor (masks : List (Word n)) (x y : Word n) :
    checkBits masks (x ^^^ y) = checkBits masks x ^^^ checkBits masks y := by
  refine BitVec.eq_of_getLsbD_eq fun p _ => ?_
  simp only [checkBits, BitVec.getLsbD_xor, getLsbD_checkBitsFrom]
  cases masks[p - (0 + 2)]? with
  | none => simp
  | some m => simp [parity_xor_and, Bool.and_xor_distrib_left]

/-- What a set of positions holds does not matter where no mask covers one of them. -/
theorem checkBits_and_not {masks : List (Word n)} {k : Word n} (hk : ∀ m ∈ masks, m &&& k = 0) (x : Word n) :
    checkBits masks (x &&& ~~~k) = checkBits masks x := by
  have hmask {m : Word n} (hm : m ∈ masks) : x &&& ~~~k &&& m = x &&& m := by
    refine BitVec.eq_of_getLsbD_eq fun i hi => ?_
    have hbit : (m &&& k).getLsbD i = false := by rw [hk m hm]; exact BitVec.getLsbD_zero
    simp only [BitVec.getLsbD_and, BitVec.getLsbD_not, hi, decide_true, Bool.true_and] at hbit ⊢
    revert hbit
    cases x.getLsbD i <;> cases m.getLsbD i <;> cases k.getLsbD i <;> decide
  refine BitVec.eq_of_getLsbD_eq fun p _ => ?_
  simp only [checkBits, getLsbD_checkBitsFrom]
  cases hm : masks[p - (0 + 2)]? with
  | none => rfl
  | some m => rw [Option.map_some, Option.map_some, hmask (List.mem_of_getElem? hm)]

/-! ### The intermediate word and the packed word -/

section
variable (v v' : Word vw) (g g' : Word 1)

theorem getLsbD_intermediateWord_tag (hn : r + 2 + vw = n) : (intermediateWord n r v g).getLsbD 0 = g.getLsbD 0 := by
  simp [intermediateWord, Config.posVal, show 0 < n by omega]

theorem getLsbD_intermediateWord_value (hn : r + 2 + vw = n) {j : Nat} (hj : j < vw) :
    (intermediateWord n r v g).getLsbD (r + 2 + j) = v.getLsbD j := by
  simp [intermediateWord, Config.posVal, show r + 2 + j < n by omega,
    BitVec.getLsbD_of_ge g (r + 2 + j) (by omega)]

/-- The intermediate word has its parity bit and check field clear (40_encoder R57 step 1). -/
theorem getLsbD_intermediateWord_between {p : Nat} (h1 : 1 ≤ p) (hp : p ≤ r + 1) :
    (intermediateWord n r v g).getLsbD p = false := by
  simp [intermediateWord, Config.posVal, show p < r + 2 by omega, BitVec.getLsbD_of_ge g p h1]

theorem intermediateWord_xor :
    intermediateWord n r (v ^^^ v') (g ^^^ g') = intermediateWord n r v g ^^^ intermediateWord n r v' g' := by
  refine BitVec.eq_of_getLsbD_eq fun p hp => ?_
  simp only [intermediateWord, Config.posVal, BitVec.getLsbD_or, BitVec.getLsbD_xor, BitVec.getLsbD_shiftLeft,
    BitVec.getLsbD_setWidth]
  by_cases hval : p < r + 2
  · simp [hval, Bool.and_xor_distrib_left]
  · simp [hval, Bool.and_xor_distrib_left, BitVec.getLsbD_of_ge g p (by omega), BitVec.getLsbD_of_ge g' p (by omega)]

variable {t : Tables n r}

/-- The intermediate word and its check bits share no position. -/
theorem intermediateWord_or_encoderCheck (hn : r + 2 + vw = n) (hlen : t.masks.length = r) :
    intermediateWord n r v g ||| encoderCheck t v g = intermediateWord n r v g ^^^ encoderCheck t v g := by
  refine BitVec.eq_of_getLsbD_eq fun p _ => ?_
  rw [BitVec.getLsbD_or, BitVec.getLsbD_xor]
  by_cases hp : 1 ≤ p ∧ p ≤ r + 1
  · rw [getLsbD_intermediateWord_between v g hp.1 hp.2, Bool.false_or, Bool.false_xor]
  · rw [encoderCheck, getLsbD_checkBits_outside _ _ (by omega), Bool.or_false, Bool.xor_false]

/-- The three parts of a packed word share no position, so that its or is an exclusive or (40_encoder R57 step 4). -/
theorem packWord_eq_xor (hn : r + 2 + vw = n) (hlen : t.masks.length = r) :
    packWord t v g =
      intermediateWord n r v g ^^^ encoderCheck t v g ^^^ bitAt n (encoderParity t v g) Config.posPar := by
  rw [packWord, intermediateWord_or_encoderCheck v g hn hlen]
  refine BitVec.eq_of_getLsbD_eq fun p _ => ?_
  simp only [BitVec.getLsbD_or, BitVec.getLsbD_xor, getLsbD_bitAt]
  by_cases hp : p = 1
  · rw [hp, getLsbD_intermediateWord_between v g (Nat.le_refl 1) (by omega), encoderCheck,
      getLsbD_checkBits_outside _ _ (.inl (by decide)), Bool.false_xor, Bool.false_or, Bool.false_xor]
  · simp [hp, Config.posPar]

/-- Packing is linear (40_encoder R61(e)). -/
theorem packWord_xor (hn : r + 2 + vw = n) (hlen : t.masks.length = r) :
    packWord t (v ^^^ v') (g ^^^ g') = packWord t v g ^^^ packWord t v' g' := by
  have hcheck : encoderCheck t (v ^^^ v') (g ^^^ g') = encoderCheck t v g ^^^ encoderCheck t v' g' := by
    simp only [encoderCheck, intermediateWord_xor, checkBits_xor]
  have hpar : encoderParity t (v ^^^ v') (g ^^^ g') = (encoderParity t v g ^^ encoderParity t v' g') := by
    simp only [encoderParity, intermediateWord_or_encoderCheck _ _ hn hlen]
    rw [intermediateWord_xor, hcheck, ← parity_xor]
    congr 1
    ac_rfl
  simp only [packWord_eq_xor _ _ hn hlen, intermediateWord_xor, hcheck, hpar, bitAt_xor]
  ac_rfl

/-- The parity bit makes the parity even (40_encoder R61(a)). -/
theorem parity_packWord (hn : r + 2 + vw = n) (hlen : t.masks.length = r) : parity (packWord t v g) = false := by
  rw [packWord_eq_xor v g hn hlen, parity_xor, parity_bitAt _ (by rw [Config.posPar]; omega), encoderParity,
    intermediateWord_or_encoderCheck v g hn hlen, Bool.xor_self]

/-- A packed word bit by bit: the or of its three parts (40_encoder R57 step 4). -/
theorem getLsbD_packWord (p : Nat) : (packWord t v g).getLsbD p =
    ((intermediateWord n r v g).getLsbD p || (encoderCheck t v g).getLsbD p ||
      (decide (p < n) && (decide (p = 1) && encoderParity t v g))) := by
  rw [packWord, BitVec.getLsbD_or, BitVec.getLsbD_or, getLsbD_bitAt, Config.posPar]

theorem getLsbD_packWord_parity (hn : r + 2 + vw = n) : (packWord t v g).getLsbD 1 = encoderParity t v g := by
  rw [getLsbD_packWord, getLsbD_intermediateWord_between v g (Nat.le_refl 1) (by omega), encoderCheck,
    getLsbD_checkBits_outside _ _ (.inl (by decide)), decide_eq_true (show 1 < n by omega)]
  rfl

theorem getLsbD_packWord_check {i : Nat} (hi : i < r) :
    (packWord t v g).getLsbD (i + 2) = (encoderCheck t v g).getLsbD (i + 2) := by
  rw [getLsbD_packWord, getLsbD_intermediateWord_between v g (by omega) (by omega)]
  simp

/-- Outside the parity bit and the check field a packed word is its intermediate word (40_encoder R57). -/
theorem getLsbD_packWord_outside (hlen : t.masks.length = r) {p : Nat} (hp : p = 0 ∨ r + 2 ≤ p) :
    (packWord t v g).getLsbD p = (intermediateWord n r v g).getLsbD p := by
  rw [getLsbD_packWord, encoderCheck, getLsbD_checkBits_outside _ _ (by omega), decide_eq_false (show ¬ p = 1 by omega)]
  simp

/-- A packed word carries its value (40_encoder R61(c)). -/
theorem valueField_packWord (hn : r + 2 + vw = n) (hlen : t.masks.length = r) :
    valueField r vw (packWord t v g) = v := by
  refine BitVec.eq_of_getLsbD_eq fun j hj => ?_
  rw [getLsbD_valueField _ hj, getLsbD_packWord_outside v g hlen (.inr (by omega)),
    getLsbD_intermediateWord_value v g hn hj]

/-- A packed word carries its tag (40_encoder R61(c)). -/
theorem tagField_packWord (hn : r + 2 + vw = n) (hlen : t.masks.length = r) : tagField (packWord t v g) = g := by
  refine BitVec.eq_of_getLsbD_eq fun i hi => ?_
  obtain rfl : i = 0 := by omega
  rw [getLsbD_tagField, getLsbD_packWord_outside v g hlen (.inl rfl), getLsbD_intermediateWord_tag v g hn]

end

/-! ### The syndrome -/

/-- The syndrome is the recomputed check field against the received one (41_decoder R68). -/
theorem syndrome_eq_checkField_xor (hn : r + 2 ≤ n) (t : Tables n r) (y : Word n) :
    syndrome t y = checkField r (checkBits t.masks y) ^^^ checkField r y := by
  refine BitVec.eq_of_getLsbD_eq fun i hi => ?_
  rw [BitVec.getLsbD_xor, getLsbD_checkField _ hi, getLsbD_checkField _ hi]
  have hmask : (checkMask n r).getLsbD (i + 2) = true := by
    rw [getLsbD_checkMask (by omega) (by omega)]
    simpa using hi
  simp [syndrome, recomputedCheck, storedCheck, Config.posChk, hi, Nat.add_comm 2 i, hmask]

theorem checkField_xor (x y : Word n) : checkField r (x ^^^ y) = checkField r x ^^^ checkField r y := by
  refine BitVec.eq_of_getLsbD_eq fun i hi => ?_
  simp only [BitVec.getLsbD_xor, getLsbD_checkField _ hi]

/-- The syndrome is linear (41_decoder R68). -/
theorem syndrome_xor (hn : r + 2 ≤ n) (t : Tables n r) (x y : Word n) :
    syndrome t (x ^^^ y) = syndrome t x ^^^ syndrome t y := by
  rw [syndrome_eq_checkField_xor hn, syndrome_eq_checkField_xor hn, syndrome_eq_checkField_xor hn, checkBits_xor,
    checkField_xor, checkField_xor]
  ac_rfl

/-- The syndrome is 0 exactly where the check field is that of the check bits recomputed (40_encoder R61(b)). -/
theorem syndrome_eq_zero_iff (hn : r + 2 ≤ n) (t : Tables n r) (y : Word n) :
    syndrome t y = 0 ↔ checkField r y = checkField r (checkBits t.masks y) := by
  rw [syndrome_eq_checkField_xor hn]
  exact BitVec.xor_eq_zero_iff.trans eq_comm

/-- A packed word with its parity bit and check field cleared is its intermediate word. -/
theorem packWord_and_not {t : Tables n r} (hn : r + 2 + vw = n) (hlen : t.masks.length = r) (v : Word vw) (g : Word 1) :
    packWord t v g &&& ~~~(((1#n <<< (r + 1)) - 1#n) <<< 1) = intermediateWord n r v g := by
  have hr : r + 1 < n := by omega
  refine BitVec.eq_of_getLsbD_eq fun p hp => ?_
  rw [BitVec.getLsbD_and, BitVec.getLsbD_not, getLsbD_checkAndParityBits hr]
  by_cases hfield : 1 ≤ p ∧ p ≤ r + 1
  · simp only [getLsbD_intermediateWord_between v g hfield.1 hfield.2, hfield, decide_true, Bool.and_self, Bool.not_true,
      Bool.and_false]
  · rw [← Bool.decide_and, decide_eq_false hfield, getLsbD_packWord_outside v g hlen (by omega)]
    simp [hp]

/-- A packed word has syndrome 0, because no mask covers what packing adds (40_encoder R61(b)). -/
theorem syndrome_packWord {t : Tables n r} (hn : r + 2 + vw = n) (hlen : t.masks.length = r)
    (hmasks : ∀ m ∈ t.masks, m &&& (((1#n <<< (r + 1)) - 1#n) <<< 1) = 0) (v : Word vw) (g : Word 1) :
    syndrome t (packWord t v g) = 0 := by
  rw [syndrome_eq_zero_iff (by omega), ← checkBits_and_not hmasks, packWord_and_not hn hlen]
  refine BitVec.eq_of_getLsbD_eq fun i hi => ?_
  rw [getLsbD_checkField _ hi, getLsbD_checkField _ hi, getLsbD_packWord_check v g hi, encoderCheck]

end Sys2Proof.Machine
end

section
/-! SUPPORT. The code of a value-syndrome order: a single bit's syndrome is its Hamming index, so that no word of syndrome 0
and even parity has fewer than four 1 bits, and the position map undoes one flip. -/

namespace Sys2Proof.Machine

variable {n r vw : Nat} {order : List Nat} {p q s : Nat}

/-! ### Flips and the population count -/

theorem getLsbD_flipBit (w : Word n) (hp : p < n) (i : Nat) :
    (flipBit w p).getLsbD i = (w.getLsbD i ^^ decide (i = p)) := by
  rw [flipBit, BitVec.getLsbD_xor, getLsbD_one_shiftLeft]
  by_cases hi : i = p
  · simp [hi, hp]
  · simp [hi]

/-- Clearing a 1 bit takes one from the count below every bound above it. -/
theorem popcountBelow_flipBit {w : Word n} (hp : p < n) (hw : w.getLsbD p = true) (i : Nat) :
    popcountBelow (flipBit w p) i + (if p < i then 1 else 0) = popcountBelow w i := by
  induction i with
  | zero => rfl
  | succ i ih =>
    simp only [popcountBelow, getLsbD_flipBit w hp, ← ih]
    by_cases hip : i = p
    · subst hip
      simp [hw]
    · by_cases hlt : p < i
      · simp [hip, hlt, show p < i + 1 by omega]
        omega
      · simp [hip, hlt, show ¬ p < i + 1 by omega]

theorem popcountBelow_eq_zero {w : Word n} {i : Nat} (h : ∀ p < i, w.getLsbD p = false) : popcountBelow w i = 0 := by
  induction i with
  | zero => rfl
  | succ i ih => rw [popcountBelow, ih fun p hp => h p (by omega), h i (by omega)]; rfl

/-- A word with a 1 bit has one that can be cleared, which takes one from the count. -/
theorem exists_popcount_flipBit {w : Word n} (h : popcount w ≠ 0) :
    ∃ p < n, w.getLsbD p = true ∧ popcount (flipBit w p) + 1 = popcount w := by
  by_contra hnone
  refine h (popcountBelow_eq_zero fun p hp => ?_)
  by_contra hbit
  have hw : w.getLsbD p = true := by simpa using hbit
  have hcount := popcountBelow_flipBit hp hw n
  rw [if_pos hp] at hcount
  exact hnone ⟨p, hp, hw, hcount⟩

theorem eq_zero_of_popcount_eq_zero {w : Word n} (h : popcount w = 0) : w = 0 := by
  refine BitVec.eq_of_getLsbD_eq fun p hp => ?_
  by_contra hbit
  have hw : w.getLsbD p = true := by simpa using hbit
  have hcount := popcountBelow_flipBit hp hw n
  rw [if_pos hp, ← popcount, ← popcount, h] at hcount
  omega

/-- A word of even parity with fewer than four 1 bits is 0 or has just two. -/
theorem eq_zero_or_two_bits {w : Word n} (hpar : parity w = false) (hlt : popcount w < 4) :
    w = 0 ∨ ∃ p < n, ∃ q < n, p ≠ q ∧ w = 1#n <<< p ^^^ 1#n <<< q := by
  by_cases h0 : popcount w = 0
  · exact .inl (eq_zero_of_popcount_eq_zero h0)
  · have heven : popcount w % 2 ≠ 1 := by simpa [parity] using hpar
    obtain ⟨p, hp, -, hcount⟩ := exists_popcount_flipBit h0
    obtain ⟨q, hq, hbit, hcount'⟩ := exists_popcount_flipBit (w := flipBit w p) (by omega)
    have hrest : w ^^^ (1#n <<< p ^^^ 1#n <<< q) = 0 := by
      rw [← BitVec.xor_assoc]
      exact eq_zero_of_popcount_eq_zero (w := flipBit (flipBit w p) q) (by omega)
    refine .inr ⟨p, hp, q, hq, ?_, BitVec.xor_eq_zero_iff.mp hrest⟩
    rintro rfl
    rw [flipBit_flipBit] at hcount'
    omega

/-! ### The syndrome of a single bit -/

/-- The Hamming index of a position of the codeword other than the parity bit is a nonzero syndrome (30_encoding R41). -/
theorem ValidOrder.exists_index (h : ValidOrder r order) (hr : 2 ≤ r) (hn : Config.posVal r + order.length = n)
    (hp : p < n) (hpar : p ≠ 1) : ∃ s, hammingIndex r order p = some s ∧ s < 2 ^ r ∧ s ≠ 0 := by
  by_cases hdata : isDataPosition r p = true
  · obtain ⟨s, hs, hlt, h0, -⟩ := ValidOrder.exists_index_of_isDataPosition h hr hn hp hdata
    exact ⟨s, hs, hlt, h0⟩
  · rw [isDataPosition_eq_true_iff] at hdata
    obtain ⟨i, rfl⟩ : ∃ i, p = i + 2 := ⟨p - 2, by omega⟩
    exact ⟨2 ^ i, hammingIndex_check (by omega), Nat.pow_lt_pow_right (by decide) (by omega), Nat.two_pow_pos i |>.ne'⟩

theorem masks_ofOrder_getElem? {i : Nat} (hi : i < r) :
    (Tables.ofOrder n r order).masks[i]? = some (coveringMask n r order i) := by
  simp [Tables.ofOrder, hi]

@[simp] theorem length_masks_ofOrder : (Tables.ofOrder n r order).masks.length = r := by
  simp [Tables.ofOrder]

/-- The syndrome of bit `p` alone is the Hamming index of `p`, and 0 for the parity bit (41_decoder R68). -/
theorem syndrome_one_shiftLeft (hn : r + 2 ≤ n) (hp : p < n) :
    syndrome (Tables.ofOrder n r order) (1#n <<< p) = BitVec.ofNat r ((hammingIndex r order p).getD 0) := by
  refine BitVec.eq_of_getLsbD_eq fun i hi => ?_
  have hbit : (syndrome (Tables.ofOrder n r order) (1#n <<< p)).getLsbD i =
      (covers r order i p ^^ decide (i + 2 = p)) := by
    rw [syndrome_eq_checkField_xor hn, BitVec.getLsbD_xor, getLsbD_checkField _ hi, getLsbD_checkField _ hi,
      getLsbD_checkBits_of_mask (masks_ofOrder_getElem? hi) (by omega), parity_one_shiftLeft_and _ hp,
      getLsbD_coveringMask, getLsbD_one_shiftLeft]
    simp [hp, show i + 2 < n by omega]
  rw [hbit, BitVec.getLsbD_ofNat, decide_eq_true hi, Bool.true_and, covers]
  by_cases hdata : isDataPosition r p = true
  · have hne : i + 2 ≠ p := by
      rw [isDataPosition_eq_true_iff] at hdata
      omega
    simp [hdata, hne]
  · rw [Bool.not_eq_true] at hdata
    obtain rfl | ⟨j, hj, rfl⟩ : p = 1 ∨ ∃ j < r, p = j + 2 := by
      obtain rfl | rfl | hchk | ⟨j, rfl⟩ := position_cases r p
      · cases hdata
      · exact .inl rfl
      · exact .inr hchk
      · rw [isDataPosition_eq_true_iff.mpr (.inr (by omega))] at hdata
        cases hdata
    · simp [hdata]
    · rw [hammingIndex_check hj, hdata, Option.getD_some, Nat.testBit_two_pow]
      simp [eq_comm]

/-- The parity bit has no part in the syndrome. -/
theorem syndrome_parity_bit (hn : r + 2 ≤ n) : syndrome (Tables.ofOrder n r order) (1#n <<< 1) = 0 :=
  syndrome_one_shiftLeft hn (by omega)

theorem syndrome_flipBit (hn : r + 2 ≤ n) (t : Tables n r) (w : Word n) :
    syndrome t (flipBit w p) = syndrome t w ^^^ syndrome t (1#n <<< p) :=
  syndrome_xor hn t w _

section
variable (h : ValidOrder r order) (hr : 2 ≤ r) (hn : Config.posVal r + order.length = n)
include h hr hn

/-- The syndrome of a single bit other than the parity bit, read as a number, is its Hamming index. -/
theorem ValidOrder.hammingIndex_eq_syndrome (hp : p < n) (hpar : p ≠ 1) :
    hammingIndex r order p = some (syndrome (Tables.ofOrder n r order) (1#n <<< p)).toNat := by
  have hwidth : r + 2 ≤ n := hn ▸ Nat.le_add_right _ _
  obtain ⟨s, hs, hlt, -⟩ := ValidOrder.exists_index h hr hn hp hpar
  rw [syndrome_one_shiftLeft hwidth hp, hs, Option.getD_some, BitVec.toNat_ofNat, Nat.mod_eq_of_lt hlt]

/-- A single bit other than the parity bit has a nonzero syndrome. -/
theorem ValidOrder.syndrome_bit_ne_zero (hp : p < n) (hpar : p ≠ 1) :
    syndrome (Tables.ofOrder n r order) (1#n <<< p) ≠ 0 := by
  intro hzero
  obtain ⟨s, hs, -, h0⟩ := ValidOrder.exists_index h hr hn hp hpar
  rw [ValidOrder.hammingIndex_eq_syndrome h hr hn hp hpar, hzero] at hs
  exact h0 (Option.some.inj hs).symm

/-- Two different bits have different syndromes (30_encoding R41). -/
theorem ValidOrder.syndrome_two_bits_ne_zero (hp : p < n) (hq : q < n) (hpq : p ≠ q) :
    syndrome (Tables.ofOrder n r order) (1#n <<< p ^^^ 1#n <<< q) ≠ 0 := by
  have hwidth : r + 2 ≤ n := hn ▸ Nat.le_add_right _ _
  rw [syndrome_xor hwidth]
  by_cases hp1 : p = 1
  · rw [hp1, syndrome_parity_bit hwidth]
    simpa using ValidOrder.syndrome_bit_ne_zero h hr hn hq (by omega)
  · by_cases hq1 : q = 1
    · rw [hq1, syndrome_parity_bit hwidth]
      simpa using ValidOrder.syndrome_bit_ne_zero h hr hn hp hp1
    · intro hzero
      have hsame := BitVec.xor_eq_zero_iff.mp hzero
      have hindex := ValidOrder.hammingIndex_eq_syndrome h hr hn hq hq1
      rw [← hsame] at hindex
      exact hpq (ValidOrder.hammingIndex_inj h (ValidOrder.hammingIndex_eq_syndrome h hr hn hp hp1) hindex)

/-- A word of even parity and syndrome 0 is 0 or has at least four 1 bits (40_encoder R61(f)). -/
theorem ValidOrder.four_le_popcount {w : Word n} (hpar : parity w = false)
    (hsyn : syndrome (Tables.ofOrder n r order) w = 0) (hw : w ≠ 0) : 4 ≤ popcount w := by
  by_contra hlt
  obtain rfl | ⟨p, hp, q, hq, hpq, rfl⟩ := eq_zero_or_two_bits hpar (Nat.lt_of_not_le hlt)
  · exact hw rfl
  · exact ValidOrder.syndrome_two_bits_ne_zero h hr hn hp hq hpq hsyn

end

/-! ### The position map -/

/-- Looking a number up in a list of pairs made from a function. -/
theorem lookup_filterMap_pair (f : Nat → Option Nat) (l : List Nat) (s : Nat) :
    (l.filterMap fun x => (f x).map fun y => (x, y)).lookup s = if s ∈ l then f s else none := by
  induction l with
  | nil => rfl
  | cons x l ih =>
    cases hx : f x with
    | none =>
      simp only [List.filterMap_cons, hx, Option.map_none, ih, List.mem_cons]
      by_cases hs : s = x
      · simp [hs, hx]
      · simp [hs]
    | some y =>
      simp only [List.filterMap_cons, hx, Option.map_some, List.lookup_cons, ih, List.mem_cons]
      by_cases hs : s = x
      · simp [hs, hx]
      · simp [hs, beq_eq_false_iff_ne.mpr hs]

/-- The map's entry for a syndrome is the position with that Hamming index (30_encoding R49). -/
theorem errorPosition_ofOrder (syn : Word r) :
    errorPosition (Tables.ofOrder n r order) syn = positionOf n r order syn.toNat := by
  rw [errorPosition, Tables.ofOrder, positionPairs, lookup_filterMap_pair, if_pos (List.mem_range.mpr syn.isLt)]

end Sys2Proof.Machine

namespace Sys2Proof.Safety

open Sys2Proof.Machine

variable {n r vw : Nat} {order : List Nat} {p q : Nat}

/-! ### The two sets of laws -/

theorem correctWord_of_no_error {t : Tables n r} {y : Word n} (h : ValidCodeword t y) :
    correctWord t y = .ok (.zero, y) := by
  obtain ⟨hpar, hsyn⟩ := h
  simp only [correctWord, hpar, decisionRow_noError hsyn, DecisionRow.errCount]

theorem correctWord_of_double_error {t : Tables n r} {y : Word n} (hpar : parity y = false) (hsyn : syndrome t y ≠ 0) :
    correctWord t y = .ok (.two, 0) := by
  simp only [correctWord, hpar, decisionRow_doubleError hsyn, DecisionRow.errCount]

theorem correctWord_of_parity_error {t : Tables n r} {y : Word n} (hpar : parity y = true) (hsyn : syndrome t y = 0) :
    correctWord t y = .ok (.one, flipBit y Config.posPar) := by
  simp only [correctWord, hpar, decisionRow_parityBit hsyn, DecisionRow.errCount]

theorem correctWord_of_located_error {t : Tables n r} {y : Word n} (hpar : parity y = true) (hsyn : syndrome t y ≠ 0)
    (hpos : errorPosition t (syndrome t y) = some p) : correctWord t y = .ok (.one, flipBit y p) := by
  simp only [correctWord, hpar, decisionRow_located hsyn, hpos, DecisionRow.errCount]

section
variable (h : ValidOrder r order) (hr : 2 ≤ r) (hn : Config.posVal r + order.length = n)
include h hr hn

/-- One flip of a valid codeword is undone (41_decoder R76). -/
theorem correctWord_flipBit {w : Word n} (hw : ValidCodeword (Tables.ofOrder n r order) w) (hp : p < n) :
    correctWord (Tables.ofOrder n r order) (flipBit w p) = .ok (.one, w) := by
  obtain ⟨hpar, hsyn⟩ := hw
  have hwidth : r + 2 ≤ n := hn ▸ Nat.le_add_right _ _
  have hodd : parity (flipBit w p) = true := by rw [parity_flipBit w hp, hpar, Bool.not_false]
  have hflip : syndrome (Tables.ofOrder n r order) (flipBit w p) =
      syndrome (Tables.ofOrder n r order) (1#n <<< p) := by
    rw [syndrome_flipBit hwidth, hsyn]
    exact BitVec.zero_xor
  by_cases hp1 : p = 1
  · subst hp1
    rw [correctWord_of_parity_error hodd (hflip.trans (syndrome_parity_bit hwidth)), Config.posPar, flipBit_flipBit]
  · have hpos := (ValidOrder.positionOf_eq_some_iff (n := n) h).mpr
      ⟨hp, ValidOrder.hammingIndex_eq_syndrome h hr hn hp hp1⟩
    rw [← hflip, ← errorPosition_ofOrder] at hpos
    rw [correctWord_of_located_error hodd (hflip ▸ ValidOrder.syndrome_bit_ne_zero h hr hn hp hp1) hpos,
      flipBit_flipBit]

/-- Two flips of a valid codeword are detected (41_decoder R77). -/
theorem correctWord_flipBit_flipBit {w : Word n} (hw : ValidCodeword (Tables.ofOrder n r order) w) (hp : p < n)
    (hq : q < n) (hpq : p ≠ q) :
    correctWord (Tables.ofOrder n r order) (flipBit (flipBit w p) q) = .ok (.two, 0) := by
  obtain ⟨hpar, hsyn⟩ := hw
  have hwidth : r + 2 ≤ n := hn ▸ Nat.le_add_right _ _
  refine correctWord_of_double_error (by rw [parity_flipBit _ hq, parity_flipBit _ hp, hpar]; rfl) ?_
  have hflips : flipBit (flipBit w p) q = w ^^^ (1#n <<< p ^^^ 1#n <<< q) := BitVec.xor_assoc _ _ _
  rw [hflips, syndrome_xor hwidth, hsyn]
  simpa using ValidOrder.syndrome_two_bits_ne_zero h hr hn hp hq hpq

omit hr in
/-- Every nonzero syndrome has a position in the codeword (60_exceptions R83). -/
theorem exists_errorPosition {syn : Word r} (hsyn : syn ≠ 0) :
    ∃ p < n, errorPosition (Tables.ofOrder n r order) syn = some p := by
  have h0 : syn.toNat ≠ 0 := fun h0 => hsyn (BitVec.eq_of_toNat_eq h0)
  obtain ⟨p, hp, hs⟩ := ValidOrder.exists_position h hn h0 syn.isLt
  exact ⟨p, hp, by rw [errorPosition_ofOrder]; exact (ValidOrder.positionOf_eq_some_iff h).mpr ⟨hp, hs⟩⟩

omit hr in
/-- CORRECT answers every word (60_exceptions R83). -/
theorem exists_correctWord_eq_ok (y : Word n) : ∃ answer, correctWord (Tables.ofOrder n r order) y = .ok answer := by
  obtain ⟨-, -, hc⟩ | ⟨-, -, hc⟩ | ⟨-, -, hc⟩ | ⟨-, hsyn, ⟨p, -, hc⟩ | ⟨hnone, -⟩⟩ :=
    correctWord_cases (Tables.ofOrder n r order) y
  · exact ⟨_, hc⟩
  · exact ⟨_, hc⟩
  · exact ⟨_, hc⟩
  · exact ⟨_, hc⟩
  · obtain ⟨p, -, hp⟩ := exists_errorPosition h hn hsyn
    exact absurd (hnone.symm.trans hp) (by simp)

variable (hvw : r + 2 + vw = n)
include hvw

omit h hr hn in
/-- Every packed word is a valid codeword (40_encoder R61(a), (b)). -/
theorem validCodeword_packWord (v : Word vw) (g : Word 1) :
    ValidCodeword (Tables.ofOrder n r order) (packWord (Tables.ofOrder n r order) v g) :=
  ⟨parity_packWord v g hvw length_masks_ofOrder,
    syndrome_packWord hvw length_masks_ofOrder (and_checkAndParityBits_of_mem_masks (by omega)) v g⟩

/-- Every order's encoder has the properties (a) to (f) of 40_encoder R61. -/
theorem encoderLaws_ofOrder : EncoderLaws (Tables.ofOrder n r order) vw := by
  have hlen : (Tables.ofOrder n r order).masks.length = r := length_masks_ofOrder
  have hvalid := validCodeword_packWord (order := order) hvw
  have hfields (v : Word vw) (g : Word 1) := And.intro (valueField_packWord v g hvw hlen) (tagField_packWord v g hvw hlen)
  have hinj {v v' : Word vw} {g g' : Word 1}
      (heq : packWord (Tables.ofOrder n r order) v g = packWord (Tables.ofOrder n r order) v' g') : v = v' ∧ g = g' := by
    obtain ⟨hv, hg⟩ := hfields v g
    obtain ⟨hv', hg'⟩ := hfields v' g'
    rw [heq] at hv hg
    exact ⟨hv.symm.trans hv', hg.symm.trans hg'⟩
  have hlin (v v' : Word vw) (g g' : Word 1) := packWord_xor v v' g g' hvw hlen
  refine ⟨fun v g => ?_, fun v g => ?_, hfields, fun _ _ _ _ => hinj, hlin, ?_, fun v v' g g' hne => ?_⟩
  · obtain ⟨hpar, -⟩ := hvalid v g
    have hbit := parity_eq_getLsbD_xor (packWord (Tables.ofOrder n r order) v g) (show 1 < n by omega)
    rw [hpar] at hbit
    exact ⟨hpar, by simpa using hbit.symm⟩
  · obtain ⟨-, hsyn⟩ := hvalid v g
    exact ⟨(syndrome_eq_zero_iff (by omega) _ _).mp hsyn, hsyn⟩
  · simpa using hlin 0 0 0 0
  · obtain ⟨hpar, hsyn⟩ := hvalid (v ^^^ v') (g ^^^ g')
    rw [hlin] at hpar hsyn
    refine ValidOrder.four_le_popcount h hr hn hpar hsyn fun hzero => hne ?_
    obtain ⟨hv, hg⟩ := hinj (BitVec.xor_eq_zero_iff.mp hzero)
    rw [hv, hg]

/-- Every order's decoder corrects one flip and detects two (41_decoder R75 to R77). -/
theorem secDedLaws_ofOrder : SecDedLaws (Tables.ofOrder n r order) vw := by
  have hvalid := validCodeword_packWord (order := order) hvw
  exact ⟨fun v g => correctWord_of_no_error (hvalid v g), fun v g p => correctWord_flipBit h hr hn (hvalid v g),
    fun v g p hp q => correctWord_flipBit_flipBit h hr hn (hvalid v g) hp, exists_correctWord_eq_ok h hn⟩

end

end Sys2Proof.Safety
end

section
/-! The two tier 3 statements of the family 40_encoder. -/

open Sys2Proof Sys2Proof.Machine Sys2Proof.Safety

/-- Settles O39: a word of syndrome 0 and even parity is 0 or has four 1 bits, since no two positions share a syndrome. -/
theorem everyOrderIsSingleCorrectingDoubleDetecting : Obligations.EveryOrderIsSingleCorrectingDoubleDetecting := by
  intro v order h
  have hr : 2 ≤ v.r := by cases v <;> decide
  have hn : Config.posVal v.r + order.length = v.n := h.length_eq ▸ posVal_add_length_valueSyndromes v
  have hvw : v.r + 2 + v.vw = v.n := by cases v <;> rfl
  exact ⟨encoderLaws_ofOrder h hr hn hvw, secDedLaws_ofOrder h hr hn hvw⟩

/-- Settles O18: the tables of A, B and C are those of the ascending order. -/
theorem packedWordsFormALinearDistanceFourCode : Obligations.PackedWordsFormALinearDistanceFourCode := by
  have hlaws (v : Variant) : EncoderLaws (Tables.ofOrder v.n v.r (valueSyndromes v.r)) v.vw := by
    obtain ⟨henc, -⟩ := everyOrderIsSingleCorrectingDoubleDetecting v _ (List.Perm.refl _)
    exact henc
  unfold Obligations.PackedWordsFormALinearDistanceFourCode
  rw [tablesA_eq_ofOrder, tablesB_eq_ofOrder, tablesC_eq_ofOrder]
  exact ⟨hlaws .A, hlaws .B, hlaws .C⟩

end

section
/-! SUPPORT. The formulas of PACK.A, PACK.B and PACK.C: a parity under a mask is the sum of the bits at the mask's positions,
and the global parity is itself a parity under a mask (40_encoder R57 to R60). -/

namespace Sys2Proof.Machine

open Sys2Proof.Safety

variable {n r vw : Nat}

/-! ### Check bits as a list -/

/-- What 40_encoder R56 says of the check bits under the covering masks of a variant. -/
def CheckBitLaws (n r : Nat) (masks : List (Word n)) : Prop :=
  (∀ (x m : Word n) (i : Nat), masks[i]? = some m → (checkBits masks x).getLsbD (i + 2) = parity (x &&& m)) ∧
  (∀ (x : Word n) (p : Nat), p < 2 ∨ r + 1 < p → (checkBits masks x).getLsbD p = false) ∧
  (∀ x : Word n, checkBits masks x = checkBits masks (x &&& ~~~(((1#n <<< (r + 1)) - 1#n) <<< 1))) ∧
  masks.length = r

/-- R56 holds of the masks of every value-syndrome order. -/
theorem checkBitLaws_ofOrder (hn : r + 1 < n) (order : List Nat) :
    CheckBitLaws n r (Tables.ofOrder n r order).masks := by
  have hlen : (Tables.ofOrder n r order).masks.length = r := length_masks_ofOrder
  refine ⟨fun x m i hm => ?_, fun x p hp => ?_, fun x => ?_, hlen⟩
  · obtain ⟨hi, -⟩ := List.getElem?_eq_some_iff.mp hm
    exact getLsbD_checkBits_of_mask hm (by omega) x
  · exact getLsbD_checkBits_outside _ x (by rwa [hlen])
  · exact (checkBits_and_not (and_checkAndParityBits_of_mem_masks hn) x).symm

/-! ### Sums of bits -/

theorem xorBits_append (x : Word n) (l l' : List Nat) : xorBits x (l ++ l') = (xorBits x l ^^ xorBits x l') := by
  induction l with
  | nil => simp [xorBits]
  | cons j l ih => simp [xorBits, ih]

/-- The positions a mask holds, in ascending order. -/
def maskPositions (m : Word n) : List Nat := (List.range n).filter fun p => m.getLsbD p

/-- The parity under a mask is the sum of the bits at its positions. -/
theorem parity_and_eq_xorBits (x m : Word n) : parity (x &&& m) = xorBits x (maskPositions m) := by
  have hbelow (i : Nat) : (popcountBelow (x &&& m) i % 2 == 1) =
      xorBits x ((List.range i).filter fun p => m.getLsbD p) := by
    induction i with
    | zero => rfl
    | succ i ih =>
      rw [List.range_succ, List.filter_append, xorBits_append, ← ih, popcountBelow, BitVec.getLsbD_and]
      cases hm : m.getLsbD i
      · simp [hm, xorBits]
      · cases hx : x.getLsbD i
        · simp [hm, hx, xorBits]
        · rcases Nat.mod_two_eq_zero_or_one (popcountBelow (x &&& m) i) with h | h <;>
            simp [hm, hx, xorBits, h, Nat.add_mod]
  exact hbelow n

section
variable (v : Word vw) (g : Word 1)

/-- A sum of value bits of the intermediate word is that sum of the value's bits. -/
theorem xorBits_intermediateWord (hn : r + 2 + vw = n) (l : List Nat) :
    xorBits (intermediateWord n r v g) (l.map (r + 2 + ·)) = xorBits v l := by
  induction l with
  | nil => rfl
  | cons j l ih =>
    have hbit : (intermediateWord n r v g).getLsbD (r + 2 + j) = v.getLsbD j := by
      by_cases hj : j < vw
      · exact getLsbD_intermediateWord_value v g hn hj
      · rw [BitVec.getLsbD_of_ge _ _ (by omega), BitVec.getLsbD_of_ge _ _ (by omega)]
    rw [List.map_cons, xorBits, xorBits, hbit, ih]

/-- The parity of the intermediate word under a mask that holds value positions alone. -/
theorem parity_and_values (hn : r + 2 + vw = n) {m : Word n} {l : List Nat} (hm : maskPositions m = l.map (r + 2 + ·)) :
    parity (intermediateWord n r v g &&& m) = xorBits v l := by
  rw [parity_and_eq_xorBits, hm, xorBits_intermediateWord v g hn]

/-- The parity of the intermediate word under a mask that holds the tag and value positions. -/
theorem parity_and_tag_values (hn : r + 2 + vw = n) {m : Word n} {l : List Nat}
    (hm : maskPositions m = 0 :: l.map (r + 2 + ·)) :
    parity (intermediateWord n r v g &&& m) = (g.getLsbD 0 ^^ xorBits v l) := by
  rw [parity_and_eq_xorBits, hm, xorBits, xorBits_intermediateWord v g hn, getLsbD_intermediateWord_tag v g hn]

/-! ### The global parity under a mask -/

/-- Of the check bits as many are 1 as there are masks of odd parity, so that their parity is that under the masks' sum. -/
theorem parity_checkBitsFrom (x : Word n) (masks : List (Word n)) (i : Nat) (hi : i + 2 + masks.length ≤ n) :
    parity (checkBitsFrom x i masks) = parity (x &&& masks.foldr (· ^^^ ·) 0) := by
  induction masks generalizing i with
  | nil =>
    have hzero : x &&& (0 : Word n) = 0#n := BitVec.and_zero
    rw [checkBitsFrom, List.foldr_nil, hzero]
    rfl
  | cons m ms ih =>
    rw [List.length_cons] at hi
    have hor : checkBitsFrom x i (m :: ms) =
        bitAt n (parity (x &&& m)) (i + 2) ^^^ checkBitsFrom x (i + 1) ms := by
      refine BitVec.eq_of_getLsbD_eq fun p _ => ?_
      rw [checkBitsFrom, BitVec.getLsbD_or, BitVec.getLsbD_xor, getLsbD_bitAt, getLsbD_checkBitsFrom]
      by_cases hp : p = i + 2
      · simp [hp]
      · simp [hp]
    rw [hor, parity_xor, parity_bitAt _ (by omega), ih (i + 1) (by omega), List.foldr_cons, BitVec.and_comm x m,
      BitVec.and_comm x, BitVec.and_comm x, parity_xor_and]

/-- The global parity is the parity under the data positions that an even number of masks hold (40_encoder R57 step 3). -/
theorem encoderParity_eq_parity_and {t : Tables n r} (hn : r + 2 + vw = n) (hlen : t.masks.length = r) {m : Word n}
    (hm : m = ~~~(((1#n <<< (r + 1)) - 1#n) <<< 1) &&& ~~~t.masks.foldr (· ^^^ ·) 0) :
    encoderParity t v g = parity (intermediateWord n r v g &&& m) := by
  have hsum : parity (encoderCheck t v g) =
      parity (intermediateWord n r v g &&& t.masks.foldr (· ^^^ ·) 0) :=
    parity_checkBitsFrom _ _ 0 (by omega)
  rw [encoderParity, intermediateWord_or_encoderCheck v g hn hlen, parity_xor, hsum, ← parity_xor]
  congr 1
  refine BitVec.eq_of_getLsbD_eq fun p hp => ?_
  rw [hm, BitVec.getLsbD_xor, BitVec.getLsbD_and, BitVec.getLsbD_and, BitVec.getLsbD_and, BitVec.getLsbD_not,
    BitVec.getLsbD_not, getLsbD_checkAndParityBits (by omega), decide_eq_true hp]
  by_cases hfield : 1 ≤ p ∧ p ≤ r + 1
  · rw [getLsbD_intermediateWord_between v g hfield.1 hfield.2, Bool.false_and, Bool.false_and, Bool.false_xor]
  · rw [← Bool.decide_and, decide_eq_false hfield]
    cases (intermediateWord n r v g).getLsbD p <;> simp

end

theorem signedView_neg_iff (w : Word n) : signedView w < 0 ↔ w.getLsbD (n - 1) = true := by
  have hlt : (w.toNat : Int) < 2 ^ n := by exact_mod_cast w.isLt
  unfold signedView
  cases w.getLsbD (n - 1)
  · simp
  · simpa using hlt

/-- The sign of the signed view of a packed word is that of its value (00_scope R12). -/
theorem signedView_packWord_neg_iff {t : Tables n r} (hn : r + 2 + vw = n) (hlen : t.masks.length = r) (hvw : 0 < vw)
    (v : Word vw) (g : Word 1) : signedView (packWord t v g) < 0 ↔ v.getLsbD (vw - 1) = true := by
  rw [signedView_neg_iff, show n - 1 = r + 2 + (vw - 1) by omega, getLsbD_packWord_outside v g hlen (.inr (by omega)),
    getLsbD_intermediateWord_value v g hn (by omega)]

/-! ### Words written out from the top bit down -/

theorem getLsbD_append_zero (x : Word n) (b : Word 1) : (x ++ b).getLsbD 0 = b.getLsbD 0 := by
  rw [BitVec.getLsbD_append, if_pos (by decide)]

theorem getLsbD_append_succ (x : Word n) (b : Word 1) (i : Nat) : (x ++ b).getLsbD (i + 1) = x.getLsbD i := by
  rw [BitVec.getLsbD_append, if_neg (by omega), Nat.add_sub_cancel]

/-- The intermediate word written out (40_encoder R57 step 1). -/
theorem append_eq_intermediateWord (v : Word vw) (g : Word 1) :
    v ++ 0#(r + 1) ++ g = intermediateWord (vw + (r + 1) + 1) r v g := by
  have hn : r + 2 + vw = vw + (r + 1) + 1 := by omega
  have hlow {p : Nat} (hp : p < r + 1) : (v ++ 0#(r + 1)).getLsbD p = false := by
    rw [BitVec.getLsbD_append, if_pos hp, BitVec.getLsbD_zero]
  apply eq_of_getLsbD_fields hn
  · rw [getLsbD_append_zero, getLsbD_intermediateWord_tag v g hn]
  · rw [getLsbD_append_succ, getLsbD_intermediateWord_between v g (Nat.le_refl 1) (by omega), hlow (by omega)]
  · intro i hi
    rw [getLsbD_append_succ, getLsbD_intermediateWord_between v g (by omega) (by omega), hlow (by omega)]
  · intro j hj
    rw [getLsbD_intermediateWord_value v g hn hj, show r + 2 + j = r + 1 + j + 1 by omega, getLsbD_append_succ,
      BitVec.getLsbD_append, if_neg (by omega), Nat.add_sub_cancel_left]

/-- The word `f` is `x` with the bits of a list appended below it, the first of the list lowest. -/
inductive AppendsBits (x : Word vw) : List Bool → {m : Nat} → Word m → Prop where
  | nil : AppendsBits x [] x
  | append {bits : List Bool} {m : Nat} {f : Word m} (b : Bool) (hf : AppendsBits x bits f) :
      AppendsBits x (b :: bits) (f ++ BitVec.ofBool b)

theorem AppendsBits.width {x : Word vw} {bits : List Bool} {m : Nat} {f : Word m} (h : AppendsBits x bits f) :
    m = vw + bits.length := by
  induction h with
  | nil => rfl
  | append b hf ih => rw [ih, List.length_cons, Nat.add_assoc]

theorem AppendsBits.getLsbD_bits {x : Word vw} {bits : List Bool} {m : Nat} {f : Word m} (h : AppendsBits x bits f)
    {i : Nat} (hi : i < bits.length) : f.getLsbD i = bits[i] := by
  induction h generalizing i with
  | nil => exact absurd hi (Nat.not_lt_zero i)
  | append b hf ih =>
    cases i with
    | zero => rw [getLsbD_append_zero]; cases b <;> rfl
    | succ i => rw [getLsbD_append_succ, ih (Nat.lt_of_succ_lt_succ hi), List.getElem_cons_succ]

theorem AppendsBits.getLsbD_above {x : Word vw} {bits : List Bool} {m : Nat} {f : Word m} (h : AppendsBits x bits f)
    (j : Nat) : f.getLsbD (bits.length + j) = x.getLsbD j := by
  induction h with
  | nil => rw [List.length_nil, Nat.zero_add]
  | append b hf ih => rw [List.length_cons, Nat.add_right_comm, getLsbD_append_succ, ih]

section
variable {m : Nat} {f : Word m} {bits : List Bool}

/-- The check bits written out: the parities under the masks at the check field's positions (40_encoder R56). -/
theorem append_eq_checkBits {masks : List (Word (m + 2))} {x : Word (m + 2)} (hf : AppendsBits 0#vw bits f)
    (hbits : bits = masks.map fun k => parity (x &&& k)) : f ++ 0#2 = checkBits masks x := by
  have hlen : bits.length = masks.length := by rw [hbits, List.length_map]
  have hwidth := hf.width
  have hn : masks.length + 2 + vw = m + 2 := by omega
  have hlow {p : Nat} (hp : p < 2) : (f ++ 0#2).getLsbD p = (checkBits masks x).getLsbD p := by
    rw [BitVec.getLsbD_append, if_pos hp, BitVec.getLsbD_zero, getLsbD_checkBits_outside _ _ (.inl hp)]
  have hhigh (p : Nat) : (f ++ 0#2).getLsbD (p + 2) = f.getLsbD p := by
    rw [BitVec.getLsbD_append, if_neg (by omega), Nat.add_sub_cancel]
  apply eq_of_getLsbD_fields hn (hlow (by decide)) (hlow (by decide))
  · intro i hi
    rw [hhigh, hf.getLsbD_bits (by omega), getLsbD_checkBits_of_mask (List.getElem?_eq_getElem hi) (by omega)]
    simp [hbits]
  · intro j hj
    rw [Nat.add_right_comm, hhigh, ← hlen, hf.getLsbD_above, BitVec.getLsbD_zero,
      getLsbD_checkBits_outside _ _ (.inr (by omega))]

variable {t : Tables (m + 1 + 1) r} {v : Word vw} {g : Word 1} {p : Bool}

/-- The packed word written out: the value, the parities under the masks, the global parity, the tag (40_encoder R57). -/
theorem append_eq_packWord (hf : AppendsBits v bits f) (hlen : t.masks.length = r)
    (hbits : bits = t.masks.map fun k => parity (intermediateWord (m + 1 + 1) r v g &&& k))
    (hp : p = encoderParity t v g) : f ++ BitVec.ofBool p ++ g = packWord t v g := by
  have hlen' : bits.length = r := by rw [hbits, List.length_map, hlen]
  have hwidth := hf.width
  have hn : r + 2 + vw = m + 1 + 1 := by omega
  apply eq_of_getLsbD_fields hn
  · rw [getLsbD_append_zero, getLsbD_packWord_outside v g hlen (.inl rfl), getLsbD_intermediateWord_tag v g hn]
  · rw [getLsbD_append_succ, getLsbD_append_zero, getLsbD_packWord_parity v g hn, ← hp]
    cases p <;> rfl
  · intro i hi
    rw [getLsbD_append_succ, getLsbD_append_succ, hf.getLsbD_bits (by omega), getLsbD_packWord_check v g hi, encoderCheck,
      getLsbD_checkBits_of_mask (List.getElem?_eq_getElem (by omega)) (by omega)]
    simp [hbits]
  · intro j hj
    rw [getLsbD_packWord_outside v g hlen (.inr (by omega)), getLsbD_intermediateWord_value v g hn hj,
      show r + 2 + j = bits.length + j + 1 + 1 by omega, getLsbD_append_succ, getLsbD_append_succ, hf.getLsbD_above]

/-- The packed word and its global parity written out, from the sums that are the parities under the masks and under the
mask of the global parity (40_encoder R57). -/
theorem packWord_of_sums {c : Word m} {parityMask : Word (m + 1 + 1)} (hf : AppendsBits v bits f)
    (hc : AppendsBits 0#vw bits c)
    (hlen : t.masks.length = r)
    (hbits : bits = t.masks.map fun k => parity (intermediateWord (m + 1 + 1) r v g &&& k))
    (hmask : parityMask =
      ~~~(((1#(m + 1 + 1) <<< (r + 1)) - 1#(m + 1 + 1)) <<< 1) &&& ~~~t.masks.foldr (· ^^^ ·) 0)
    (hp : p = parity (intermediateWord (m + 1 + 1) r v g &&& parityMask)) :
    f ++ BitVec.ofBool p ++ g = packWord t v g ∧ p = parity (intermediateWord (m + 1 + 1) r v g ||| (c ++ 0#2)) := by
  have hlen' : bits.length = r := by rw [hbits, List.length_map, hlen]
  have hwidth := hf.width
  have hpar : p = encoderParity t v g := hp.trans (encoderParity_eq_parity_and v g (by omega) hlen hmask).symm
  have hcheck : c ++ 0#2 = encoderCheck t v g := append_eq_checkBits hc hbits
  exact ⟨append_eq_packWord hf hlen hbits hpar, by rw [hcheck, hpar, encoderParity]⟩

end

end Sys2Proof.Machine
end

section
/-! The statements of the family 40_encoder on check bits and on the formulas of the three operations. -/

open Sys2Proof Sys2Proof.Machine Sys2Proof.Safety

/-- Settles O19: the tables of A, B and C are those of the ascending order, and the check bits of any order have the laws. -/
theorem checkBitsAreMaskParities : Obligations.CheckBitsAreMaskParities := by
  unfold Obligations.CheckBitsAreMaskParities
  rw [tablesA_eq_ofOrder, tablesB_eq_ofOrder, tablesC_eq_ofOrder]
  exact ⟨checkBitLaws_ofOrder (by decide) _, checkBitLaws_ofOrder (by decide) _, checkBitLaws_ofOrder (by decide) _⟩

/-- Settles O11: each sum is the parity under its mask, the parities under the masks are the check bits, and the
output table is evaluated. -/
theorem packAFollowsItsFormula : Obligations.PackAFollowsItsFormula := by
  refine ⟨?_, by decide, by decide, by decide, by decide,
    signedView_packWord_neg_iff rfl rfl (by decide), by decide, by decide⟩
  intro s v t hv ht I c0 c1 c2 P w C
  have hI : I = intermediateWord 8 3 v t := append_eq_intermediateWord v t
  have hc0 : c0 = parity (I &&& 0xA1) := (hI ▸ parity_and_tag_values v t rfl (by decide)).symm
  have hc1 : c1 = parity (I &&& 0xC1) := (hI ▸ parity_and_tag_values v t rfl (by decide)).symm
  have hc2 : c2 = parity (I &&& 0xE0) := (hI ▸ parity_and_values v t rfl (by decide)).symm
  have hP : P = parity (I &&& 0x61) := (hI ▸ parity_and_tag_values v t rfl (by decide)).symm
  have hbits : [c0, c1, c2] = tablesA.masks.map fun m => parity (intermediateWord 8 3 v t &&& m) := by
    rw [← hI, hc0, hc1, hc2]
    rfl
  obtain ⟨hw, hPC⟩ : w = packA v t ∧ P = parity (I ||| C) := by
    rw [hI] at hP ⊢
    exact packWord_of_sums (.append c0 (.append c1 (.append c2 .nil)))
      (.append c0 (.append c1 (.append c2 .nil))) rfl hbits (by decide) hP
  exact ⟨(exec_packA_next_iff s _).mpr ⟨v, t, hv, ht, by rw [hw]; rfl⟩, hc0, hc1, hc2, hP, hPC⟩

/-- Settles O12: each sum is the parity under its mask, and the parities under the masks are the check bits; the
examples are evaluated. -/
theorem packBFollowsItsFormula : Obligations.PackBFollowsItsFormula := by
  refine ⟨?_, by decide, by decide, by decide, by decide,
    signedView_packWord_neg_iff rfl rfl (by decide), by decide, by decide, by decide, by decide⟩
  intro s v t hv ht I c0 c1 c2 c3 P w C
  have hI : I = intermediateWord 16 4 v t := append_eq_intermediateWord v t
  have hc0 : c0 = parity (I &&& 0xAB41) := (hI ▸ parity_and_tag_values v t rfl (by decide)).symm
  have hc1 : c1 = parity (I &&& 0xCD81) := (hI ▸ parity_and_tag_values v t rfl (by decide)).symm
  have hc2 : c2 = parity (I &&& 0xF1C0) := (hI ▸ parity_and_values v t rfl (by decide)).symm
  have hc3 : c3 = parity (I &&& 0xFE00) := (hI ▸ parity_and_values v t rfl (by decide)).symm
  have hP : P = parity (I &&& 0x96C1) := (hI ▸ parity_and_tag_values v t rfl (by decide)).symm
  have hbits : [c0, c1, c2, c3] = tablesB.masks.map fun m => parity (intermediateWord 16 4 v t &&& m) := by
    rw [← hI, hc0, hc1, hc2, hc3]
    rfl
  obtain ⟨hw, hPC⟩ : w = packB v t ∧ P = parity (I ||| C) := by
    rw [hI] at hP ⊢
    exact packWord_of_sums (.append c0 (.append c1 (.append c2 (.append c3 .nil))))
      (.append c0 (.append c1 (.append c2 (.append c3 .nil)))) rfl hbits (by decide) hP
  exact ⟨(exec_packB_next_iff s _).mpr ⟨v, t, hv, ht, by rw [hw]; rfl⟩, hc0, hc1, hc2, hc3, hP, hPC⟩

/-- Settles O13: each sum is the parity under its mask, and the parities under the masks are the check bits; the
examples are evaluated. -/
theorem packCFollowsItsFormula : Obligations.PackCFollowsItsFormula := by
  refine ⟨?_, by decide, by decide, by decide, by decide,
    signedView_packWord_neg_iff rfl rfl (by decide), by decide, by decide, by decide, by decide⟩
  intro s v t hv ht I c0 c1 c2 c3 c4 c5 P w C
  have hI : I = intermediateWord 64 6 v t := append_eq_intermediateWord v t
  have hc0 : c0 = parity (I &&& 0xAAAAAAAB5556AD01) := (hI ▸ parity_and_tag_values v t rfl (by decide)).symm
  have hc1 : c1 = parity (I &&& 0xCCCCCCCD999B3601) := (hI ▸ parity_and_tag_values v t rfl (by decide)).symm
  have hc2 : c2 = parity (I &&& 0xF0F0F0F1E1E3C700) := (hI ▸ parity_and_values v t rfl (by decide)).symm
  have hc3 : c3 = parity (I &&& 0xFF00FF01FE03F800) := (hI ▸ parity_and_values v t rfl (by decide)).symm
  have hc4 : c4 = parity (I &&& 0xFFFF0001FFFC0000) := (hI ▸ parity_and_values v t rfl (by decide)).symm
  have hc5 : c5 = parity (I &&& 0xFFFFFFFE00000000) := (hI ▸ parity_and_values v t rfl (by decide)).symm
  have hP : P = parity (I &&& 0x96696996D32E5B01) := (hI ▸ parity_and_tag_values v t rfl (by decide)).symm
  have hbits : [c0, c1, c2, c3, c4, c5] = tablesC.masks.map fun m => parity (intermediateWord 64 6 v t &&& m) := by
    rw [← hI, hc0, hc1, hc2, hc3, hc4, hc5]
    rfl
  obtain ⟨hw, hPC⟩ : w = packC v t ∧ P = parity (I ||| C) := by
    rw [hI] at hP ⊢
    exact packWord_of_sums (.append c0 (.append c1 (.append c2 (.append c3 (.append c4 (.append c5 .nil))))))
      (.append c0 (.append c1 (.append c2 (.append c3 (.append c4 (.append c5 .nil)))))) rfl hbits (by decide) hP
  exact ⟨(exec_packC_next_iff s _).mpr ⟨v, t, hv, ht, by rw [hw]; rfl⟩, hc0, hc1, hc2, hc3, hc4, hc5, hP, hPC⟩

end

section
/-! SUPPORT. PACK requests with integer operands (40_encoder R62, R63). -/

namespace Sys2Proof.Machine

/-- The value port of a variant holds the values below 2^(k-1) (00_scope R8). -/
theorem k_sub_one_eq_vw (v : Variant) : v.k - 1 = v.vw := by
  cases v <;> rfl

/-- An integer that fits a port is the number of one of its values. -/
theorem exists_toNat_of_fits {width : Nat} {x : Int} (h0 : 0 ≤ x) (h : x < 2 ^ width) :
    ∃ y : Word width, x = y.toNat := by
  obtain ⟨a, rfl⟩ := Int.eq_ofNat_of_zero_le h0
  have ha : a < 2 ^ width := by exact_mod_cast h
  exact ⟨BitVec.ofNatLT a ha, by rw [BitVec.toNat_ofNatLT]⟩

/-- The tag driven is the lowest bit of the integer (40_encoder R63). -/
theorem toNat_tagOperand (tag : Int) : (tagOperand tag).toNat = (tag % 2).toNat :=
  BitVec.toNat_ofInt tag

theorem tagOperand_emod_two (tag : Int) : tagOperand (tag % 2) = tagOperand tag := by
  apply BitVec.eq_of_toNat_eq
  rw [toNat_tagOperand, toNat_tagOperand, Int.emod_emod]

/-- A value that does not fit the value port is refused by name (40_encoder R62). -/
theorem issue_pack_of_not_fits {v : Variant} {value : Int} (h : value < 0 ∨ 2 ^ v.vw ≤ value) (tag : Int) (s : State) :
    issue (.pack v value tag) s = .refused (.operandOutOfRange (.pack v value tag)) := by
  cases v
  · rw [issue, portOperand_of_not_fits (width := 3) h, withOperand_none]
  · rw [issue, portOperand_of_not_fits (width := 10) h, withOperand_none]
  · rw [issue, portOperand_of_not_fits (width := 56) h, withOperand_none]

theorem issue_packA_toNat (s : State) (x : Word 3) (tag : Int) : issue (.pack .A x.toNat tag) s =
    .next (s.putA ((s.a.driveEncoder x (tagOperand tag)).recordEncoder (packA x (tagOperand tag)))) := by
  rw [issue, portOperand_toNat, withOperand_some, exec_packA_next_iff]
  exact ⟨x, tagOperand tag, rfl, rfl, rfl⟩

theorem issue_packB_toNat (s : State) (x : Word 10) (tag : Int) : issue (.pack .B x.toNat tag) s =
    .next (s.putB ((s.b.driveEncoder x (tagOperand tag)).recordEncoder (packB x (tagOperand tag)))) := by
  rw [issue, portOperand_toNat, withOperand_some, exec_packB_next_iff]
  exact ⟨x, tagOperand tag, rfl, rfl, rfl⟩

theorem issue_packC_toNat (s : State) (x : Word 56) (tag : Int) : issue (.pack .C x.toNat tag) s =
    .next (s.putC ((s.c.driveEncoder x (tagOperand tag)).recordEncoder (packC x (tagOperand tag)))) := by
  rw [issue, portOperand_toNat, withOperand_some, exec_packC_next_iff]
  exact ⟨x, tagOperand tag, rfl, rfl, rfl⟩

/-- A value that fits is packed, and the state reads the tag through its lowest bit alone (40_encoder R63). -/
theorem issue_pack_of_fits {v : Variant} {value : Int} (h0 : 0 ≤ value) (h : value < 2 ^ v.vw) (s : State) :
    ∃ packed : Word 1 → State, ∀ tag : Int, issue (.pack v value tag) s = .next (packed (tagOperand tag)) := by
  obtain ⟨x, rfl⟩ := exists_toNat_of_fits h0 h
  cases v
  · exact ⟨fun g => s.putA ((s.a.driveEncoder x g).recordEncoder (packA x g)), issue_packA_toNat s x⟩
  · exact ⟨fun g => s.putB ((s.b.driveEncoder x g).recordEncoder (packB x g)), issue_packB_toNat s x⟩
  · exact ⟨fun g => s.putC ((s.c.driveEncoder x g).recordEncoder (packC x g)), issue_packC_toNat s x⟩

end Sys2Proof.Machine
end

section
/-! The statements of the family 40_encoder on integer operands. -/

open Sys2Proof Sys2Proof.Machine

/-- Settles O45: a value outside the port's range is no operand, and one within it is the number of a port value. -/
theorem outOfRangeValuesAreRefused : Obligations.OutOfRangeValuesAreRefused :=
  ⟨fun v s _ tag h => issue_pack_of_not_fits (k_sub_one_eq_vw v ▸ h) tag s, issue_packA_toNat, issue_packB_toNat,
    issue_packC_toNat⟩

/-- Settles O46: the request reads the tag through its lowest bit. -/
theorem onlyTheLowTagBitCounts : Obligations.OnlyTheLowTagBitCounts := by
  refine ⟨toNat_tagOperand, fun v s value tag h0 h => ?_, fun s => ?_, fun s => ?_⟩
  · obtain ⟨packed, hpacked⟩ := issue_pack_of_fits h0 h s
    exact ⟨⟨_, hpacked tag⟩, by rw [hpacked, hpacked, tagOperand_emod_two]⟩
  · exact ⟨_, issue_packA_toNat s 0b101 2, congrArg some (by decide)⟩
  · exact ⟨_, issue_packA_toNat s 0b101 3, congrArg some (by decide)⟩

end

section
/-! SUPPORT. What the family 41_decoder rests on: words by their parity, tables regenerated from a value-syndrome order, and
the words these make valid, which are the packed words. -/

namespace Sys2Proof.Machine

variable {n : Nat}

theorem popcount_one_shiftLeft {p : Nat} (hp : p < n) : popcount (1#n <<< p) = 1 := by
  have h := popcountBelow_one_shiftLeft_and (BitVec.allOnes n) p n (Nat.le_refl n)
  rwa [BitVec.and_allOnes, if_pos hp, BitVec.getLsbD_allOnes, decide_eq_true hp] at h

/-- Words of the same parity that agree on all bits but one are equal. -/
theorem eq_of_parity_eq {x y : Word n} {p : Nat} (hp : p < n) (hpar : parity x = parity y)
    (hrest : ∀ i < n, i ≠ p → x.getLsbD i = y.getLsbD i) : x = y := by
  have hmask : x &&& ~~~(1#n <<< p) = y &&& ~~~(1#n <<< p) := by
    refine BitVec.eq_of_getLsbD_eq fun i hi => ?_
    rw [BitVec.getLsbD_and, BitVec.getLsbD_and, BitVec.getLsbD_not, getLsbD_one_shiftLeft]
    by_cases hip : i = p
    · simp [hip, hp]
    · rw [hrest i hi hip]
  rw [parity_eq_getLsbD_xor x hp, parity_eq_getLsbD_xor y hp, hmask, Bool.xor_left_inj] at hpar
  refine BitVec.eq_of_getLsbD_eq fun i hi => ?_
  by_cases hip : i = p
  · exact hip ▸ hpar
  · exact hrest i hi hip

theorem card_word (m : Nat) : Fintype.card (Word m) = 2 ^ m := by
  rw [← FinEnum.card_eq_fintypeCard, FinEnum.card_bitVec]

/-- Half of all words are odd: flipping bit 0 pairs them with the even ones. -/
theorem card_parity_eq (hn : 0 < n) (b : Bool) : (Finset.univ.filter fun y : Word n => parity y = b).card = 2 ^ (n - 1) := by
  have hflip (y : Word n) : parity (flipBit y 0) = !parity y := parity_flipBit y hn
  have hpairs : (Finset.univ.filter fun y : Word n => parity y = b).card =
      (Finset.univ.filter fun y : Word n => ¬ parity y = b).card :=
    Finset.card_nbij' (flipBit · 0) (flipBit · 0) (by intro y; simp [hflip]) (by intro y; simp [hflip, Bool.eq_not])
      (by intro y; simp) (by intro y; simp)
  have hall := Finset.card_filter_add_card_filter_not (s := Finset.univ) fun y : Word n => parity y = b
  rw [← hpairs, Finset.card_univ, card_word] at hall
  have hpow : 2 ^ n = 2 ^ (n - 1) * 2 := by rw [← Nat.pow_succ, Nat.succ_eq_add_one, Nat.sub_add_cancel hn]
  omega

/-- A driven and answered CORRECT.A drives the answer. -/
theorem exec_correctA_of_answer {s : State} {y o : Word 8} {e : ErrCount} (hy : s.a.decIn = some y)
    (hc : correctWord tablesA y = .ok (e, o)) : exec .correctA s = .next (s.putA (s.a.recordDecoder e o)) :=
  (exec_correctA_next_iff s _).mpr ⟨y, e, o, hy, hc, rfl⟩

theorem exec_correctB_of_answer {s : State} {y o : Word 16} {e : ErrCount} (hy : s.b.decIn = some y)
    (hc : correctWord tablesB y = .ok (e, o)) : exec .correctB s = .next (s.putB (s.b.recordDecoder e o)) :=
  (exec_correctB_next_iff s _).mpr ⟨y, e, o, hy, hc, rfl⟩

theorem exec_correctC_of_answer {s : State} {y o : Word 64} {e : ErrCount} (hy : s.c.decIn = some y)
    (hc : correctWord tablesC y = .ok (e, o)) : exec .correctC s = .next (s.putC (s.c.recordDecoder e o)) :=
  (exec_correctC_next_iff s _).mpr ⟨y, e, o, hy, hc, rfl⟩

end Sys2Proof.Machine

namespace Sys2Proof.Safety

open Sys2Proof.Machine

variable {n r vw : Nat} {t : Tables n r}

/-- Tables regenerated from some value-syndrome order (30_encoding R41(d)), of the widths of a codeword with a value of `vw`
bits (R38): what all claims about the decoder rest on, whatever the order (92_eei_decisions D4). -/
structure FromOrder (t : Tables n r) (vw : Nat) : Prop where
  two_le : 2 ≤ r
  width : r + 2 + vw = n
  exists_order : ∃ order, ValidOrder r order ∧ Config.posVal r + order.length = n ∧ t = Tables.ofOrder n r order

theorem fromOrder_default (v : Variant) : FromOrder (Tables.ofOrder v.n v.r (valueSyndromes v.r)) v.vw where
  two_le := by cases v <;> decide
  width := by cases v <;> rfl
  exists_order := ⟨_, List.Perm.refl _, posVal_add_length_valueSyndromes v, rfl⟩

theorem fromOrder_tablesA : FromOrder tablesA 3 := tablesA_eq_ofOrder ▸ fromOrder_default .A

theorem fromOrder_tablesB : FromOrder tablesB 10 := tablesB_eq_ofOrder ▸ fromOrder_default .B

theorem fromOrder_tablesC : FromOrder tablesC 56 := tablesC_eq_ofOrder ▸ fromOrder_default .C

/-! ### Valid codewords -/

theorem validCodeword_zero (hn : r + 2 ≤ n) (t : Tables n r) : ValidCodeword t 0 := by
  have hlin := syndrome_xor hn t 0 0
  exact ⟨parity_zero, by simpa using hlin⟩

namespace FromOrder

section
variable (ht : FromOrder t vw)
include ht

theorem width_le : r + 2 ≤ n := ht.width ▸ Nat.le_add_right _ _

theorem length_masks : t.masks.length = r := by
  obtain ⟨order, -, -, rfl⟩ := ht.exists_order
  exact length_masks_ofOrder

/-- No mask covers the parity bit or a check bit (30_encoding R45(a)). -/
theorem and_checkAndParityBits : ∀ m ∈ t.masks, m &&& (((1#n <<< (r + 1)) - 1#n) <<< 1) = 0 := by
  have hn := ht.width_le
  obtain ⟨order, -, -, rfl⟩ := ht.exists_order
  exact and_checkAndParityBits_of_mem_masks (by omega)

theorem secDedLaws : SecDedLaws t vw := by
  obtain ⟨order, horder, hn, rfl⟩ := ht.exists_order
  exact secDedLaws_ofOrder horder ht.two_le hn ht.width

theorem validCodeword_packWord (v : Word vw) (g : Word 1) : ValidCodeword t (packWord t v g) := by
  obtain ⟨order, -, -, rfl⟩ := ht.exists_order
  exact Safety.validCodeword_packWord ht.width v g

/-- A valid codeword is given by its tag and value: its check field is recomputed from them, and its parity bit makes the
parity even. -/
theorem eq_of_data_eq {x y : Word n} (hx : ValidCodeword t x) (hy : ValidCodeword t y)
    (hdata : ∀ p < n, p = 0 ∨ r + 2 ≤ p → x.getLsbD p = y.getLsbD p) : x = y := by
  have hn := ht.width_le
  obtain ⟨hparx, hsynx⟩ := hx
  obtain ⟨hpary, hsyny⟩ := hy
  have hmasked : x &&& ~~~(((1#n <<< (r + 1)) - 1#n) <<< 1) = y &&& ~~~(((1#n <<< (r + 1)) - 1#n) <<< 1) := by
    refine BitVec.eq_of_getLsbD_eq fun p hp => ?_
    rw [BitVec.getLsbD_and, BitVec.getLsbD_and, BitVec.getLsbD_not, getLsbD_checkAndParityBits (by omega)]
    by_cases hfield : p = 0 ∨ r + 2 ≤ p
    · rw [hdata p hp hfield]
    · simp [show 1 ≤ p by omega, show p ≤ r + 1 by omega]
  have hmasks := ht.and_checkAndParityBits
  have hcheck : checkField r x = checkField r y := by
    rw [(syndrome_eq_zero_iff hn t x).mp hsynx, (syndrome_eq_zero_iff hn t y).mp hsyny, ← checkBits_and_not hmasks x,
      hmasked, checkBits_and_not hmasks]
  refine eq_of_parity_eq (p := 1) (by omega) (hparx.trans hpary.symm) fun p hp hp1 => ?_
  by_cases hfield : p = 0 ∨ r + 2 ≤ p
  · exact hdata p hp hfield
  · obtain ⟨i, rfl⟩ : ∃ i, p = i + 2 := ⟨p - 2, by omega⟩
    rw [← getLsbD_checkField (r := r) x (by omega), hcheck, getLsbD_checkField y (by omega)]

/-- The valid codewords are the packed words, each that of its own fields (41_decoder R75). -/
theorem validCodeword_iff (w : Word n) : ValidCodeword t w ↔ ∃ (v : Word vw) (g : Word 1), w = packWord t v g := by
  constructor
  · intro hw
    refine ⟨valueField r vw w, tagField w, ht.eq_of_data_eq hw (ht.validCodeword_packWord _ _) fun p hp hdata => ?_⟩
    rw [getLsbD_packWord_outside _ _ ht.length_masks hdata]
    rcases hdata with rfl | hval
    · rw [getLsbD_intermediateWord_tag _ _ ht.width, getLsbD_tagField]
    · obtain ⟨j, rfl⟩ := Nat.exists_eq_add_of_le hval
      have hj : j < vw := by have := ht.width; omega
      rw [getLsbD_intermediateWord_value _ _ ht.width hj, getLsbD_valueField w hj]
  · rintro ⟨v, g, rfl⟩
    exact ht.validCodeword_packWord v g

/-- There are as many valid codewords as values and tags (41_decoder R75). -/
theorem card_validCodeword :
    (Finset.univ.filter fun w : Word n => parity w = false ∧ syndrome t w = 0).card = 2 ^ (vw + 1) := by
  have hwidth := ht.width
  have himage : (Finset.univ.filter fun w : Word n => parity w = false ∧ syndrome t w = 0) =
      Finset.univ.image fun m : Word vw × Word 1 => packWord t m.1 m.2 := by
    ext w
    simp only [Finset.mem_filter, Finset.mem_univ, true_and, Finset.mem_image, Prod.exists, eq_comm (b := w)]
    exact ht.validCodeword_iff w
  have hinj : Function.Injective fun m : Word vw × Word 1 => packWord t m.1 m.2 := by
    rintro ⟨v, g⟩ ⟨v', g'⟩ heq
    have hunpack := congrArg (unpack r vw) heq
    simpa only [unpack, valueField_packWord _ _ hwidth ht.length_masks, tagField_packWord _ _ hwidth ht.length_masks]
      using hunpack
  rw [himage, Finset.card_image_of_injective _ hinj, Finset.card_univ, Fintype.card_prod, card_word, card_word, pow_add]

end
end FromOrder

end Sys2Proof.Safety
end

section
/-! SUPPORT. What CORRECT answers for any word, how many words it answers with each count, what stands recorded after an
operation, and what comes out of a channel. -/

namespace Sys2Proof.Safety

open Sys2Proof.Machine

variable {n r vw : Nat} {t : Tables n r} {y o : Word n} {e : ErrCount} {p : Nat}

namespace FromOrder

section
variable (ht : FromOrder t vw)
include ht

/-! ### Syndromes that a flip produces or removes -/

theorem syndrome_packWord_tagFlip (v : Word vw) (g : Word 1) : syndrome t (packWord t v g ^^^ 1#n) = 3 := by
  have hn := ht.width_le
  obtain ⟨-, hsyn⟩ := ht.validCodeword_packWord v g
  obtain ⟨order, -, -, rfl⟩ := ht.exists_order
  have htag := syndrome_one_shiftLeft (order := order) hn (p := 0) (by omega)
  rw [BitVec.shiftLeft_zero, hammingIndex_tag] at htag
  rw [syndrome_xor hn, hsyn, htag]
  exact BitVec.zero_xor

/-- The position of a nonzero syndrome is inside the word, and that bit alone has this syndrome (41_decoder R69). -/
theorem syndrome_errorPosition {syn : Word r} (hp : errorPosition t syn = some p) :
    p < n ∧ syndrome t (1#n <<< p) = syn := by
  have hn := ht.width_le
  obtain ⟨order, horder, -, rfl⟩ := ht.exists_order
  rw [errorPosition_ofOrder, ValidOrder.positionOf_eq_some_iff horder] at hp
  obtain ⟨hlt, hindex⟩ := hp
  refine ⟨hlt, ?_⟩
  rw [syndrome_one_shiftLeft hn hlt, hindex, Option.getD_some, BitVec.ofNat_toNat, BitVec.setWidth_eq]

/-- A flip that adds a word's own syndrome to an odd word makes a valid codeword. -/
theorem validCodeword_flipBit (hp : p < n) (hpar : parity y = true) (hsyn : syndrome t (1#n <<< p) = syndrome t y) :
    ValidCodeword t (flipBit y p) := by
  refine ⟨by rw [parity_flipBit y hp, hpar]; rfl, ?_⟩
  rw [syndrome_flipBit ht.width_le, hsyn]
  exact BitVec.xor_self

/-! ### What CORRECT answers -/

/-- What CORRECT answers with each count: a word that was valid, a valid word one flip away, or the sentinel (41_decoder
R74, R78). -/
theorem correctWord_eq_ok_cases (hc : correctWord t y = .ok (e, o)) :
    (e = .zero ∧ o = y ∧ ValidCodeword t y) ∨
    (e = .one ∧ ∃ p < n, o = flipBit y p ∧ ValidCodeword t o) ∨
    (e = .two ∧ o = 0) := by
  have hn := ht.width_le
  obtain ⟨hpar, hsyn, hrow⟩ | ⟨-, -, hrow⟩ | ⟨hpar, hsyn, hrow⟩ | ⟨hpar, -, ⟨p, hp, hrow⟩ | ⟨-, hrow⟩⟩ :=
    correctWord_cases t y <;> cases hc.symm.trans hrow
  · exact .inl ⟨rfl, rfl, hpar, hsyn⟩
  · exact .inr (.inr ⟨rfl, rfl⟩)
  · have hbit : syndrome t (1#n <<< 1) = syndrome t y := by
      obtain ⟨order, -, -, rfl⟩ := ht.exists_order
      rw [syndrome_parity_bit hn, hsyn]
    exact .inr (.inl ⟨rfl, 1, by omega, rfl, ht.validCodeword_flipBit (p := 1) (by omega) hpar hbit⟩)
  · obtain ⟨hlt, hbit⟩ := ht.syndrome_errorPosition hp
    exact .inr (.inl ⟨rfl, p, hlt, rfl, ht.validCodeword_flipBit hlt hpar hbit⟩)

/-- The word CORRECT returns is a valid codeword, whatever was received (41_decoder R78). -/
theorem validCodeword_of_correctWord (hc : correctWord t y = .ok (e, o)) : ValidCodeword t o := by
  obtain ⟨-, rfl, hvalid⟩ | ⟨-, -, -, -, hvalid⟩ | ⟨-, rfl⟩ := ht.correctWord_eq_ok_cases hc
  · exact hvalid
  · exact hvalid
  · exact validCodeword_zero ht.width_le t

theorem correctWord_again (hc : correctWord t y = .ok (e, o)) : correctWord t o = .ok (.zero, o) :=
  correctWord_of_no_error (ht.validCodeword_of_correctWord hc)

/-- The answer for each count: the input, a word at distance 1, the sentinel (41_decoder R70, R74). -/
theorem correctWord_near_input (y o : Word n) (e : ErrCount) (hc : correctWord t y = .ok (e, o)) :
    ValidCodeword t o ∧ (e = .zero → o = y) ∧ (e = .one → distance y o = 1) ∧ (e = .two → o = 0) := by
  refine ⟨ht.validCodeword_of_correctWord hc, ?_⟩
  obtain ⟨rfl, rfl, -⟩ | ⟨rfl, p, hp, rfl, -⟩ | ⟨rfl, rfl⟩ := ht.correctWord_eq_ok_cases hc
  · simp
  · have hdiff : y ^^^ flipBit y p = 1#n <<< p := by simp [flipBit]
    simp [distance, hdiff, popcount_one_shiftLeft hp]
  · simp

/-! ### How many words have each count -/

/-- The words of each count: CORRECT answers every word, and its count follows from the two signals (60_exceptions R80). -/
theorem reportedCount_iff (y : Word n) :
    (reportedCount t y = some .zero ↔ parity y = false ∧ syndrome t y = 0) ∧
    (reportedCount t y = some .one ↔ parity y = true) ∧
    (reportedCount t y = some .two ↔ parity y = false ∧ ¬ syndrome t y = 0) := by
  obtain ⟨-, -, -, hanswers⟩ := ht.secDedLaws
  obtain ⟨answer, hanswer⟩ := hanswers y
  obtain ⟨hpar, hsyn, hc⟩ | ⟨hpar, hsyn, hc⟩ | ⟨hpar, hsyn, hc⟩ | ⟨hpar, hsyn, ⟨p, -, hc⟩ | ⟨-, hc⟩⟩ :=
    correctWord_cases t y
  · simp [reportedCount, hc, hpar, hsyn]
  · simpa [reportedCount, hc, hpar] using hsyn
  · simp [reportedCount, hc, hpar]
  · simp [reportedCount, hc, hpar]
  · cases hanswer.symm.trans hc

/-- 2^k words are reported as error-free, half of all as single errors and the rest as double errors (41_decoder R71 to
R73). -/
theorem wordsReported_eq :
    wordsReported t .zero = 2 ^ (vw + 1) ∧ wordsReported t .one = 2 ^ (n - 1) ∧
      wordsReported t .two = 2 ^ (n - 1) - 2 ^ (vw + 1) := by
  have hn : 0 < n := by have := ht.width; omega
  have hsplit := Finset.card_filter_add_card_filter_not (s := Finset.univ.filter fun y : Word n => parity y = false)
    fun y => syndrome t y = 0
  rw [Finset.filter_filter, Finset.filter_filter, card_parity_eq hn, ht.card_validCodeword] at hsplit
  have hcounts := ht.reportedCount_iff
  simp only [forall_and] at hcounts
  obtain ⟨hzero, hone, htwo⟩ := hcounts
  simp only [wordsReported, hzero, hone, htwo]
  exact ⟨ht.card_validCodeword, card_parity_eq hn true, by omega⟩

/-! ### The channel -/

/-- What comes out of a channel, decoded and put on the decoder's ports (41_decoder R75 to R77, R79). -/
theorem channelResult (x : Block n vw) (v : Word vw) (g : Word 1) (flips : List Nat)
    (hc : correctWord t (flipBits (packWord t v g) flips) = .ok (e, o)) :
    ChannelResult r flips (packWord t v g) v g (x.recordDecoder e o) := by
  obtain ⟨hnone, hsingle, hdouble, -⟩ := ht.secDedLaws
  have hunpack : unpack r vw (packWord t v g) = (v, g) := by
    rw [unpack, valueField_packWord v g ht.width ht.length_masks, tagField_packWord v g ht.width ht.length_masks]
  refine ⟨?_, ?_, ?_⟩
  · rintro rfl
    cases hc.symm.trans (hnone v g)
    exact ⟨rfl, rfl, congrArg some hunpack⟩
  · rintro p hp rfl
    cases hc.symm.trans (hsingle v g p hp)
    exact ⟨rfl, rfl, congrArg some hunpack⟩
  · rintro p hp q hq hpq rfl
    cases hc.symm.trans (hdouble v g p hp q hq hpq)
    exact ⟨rfl, rfl, rfl⟩

end
end FromOrder

/-! ### Recorded outputs -/

theorem BlockOutputsAreCodewords.recordEncoder {x : Block n vw} (hx : BlockOutputsAreCodewords t x)
    (ht : FromOrder t vw) (v : Word vw) (g : Word 1) :
    BlockOutputsAreCodewords t (x.recordEncoder (packWord t v g)) := by
  obtain ⟨-, hout, hcount⟩ := hx
  refine ⟨fun w hw => ?_, hout, hcount⟩
  exact Option.some.inj hw ▸ ht.validCodeword_packWord v g

theorem BlockOutputsAreCodewords.recordDecoder {x : Block n vw} (hx : BlockOutputsAreCodewords t x)
    (ht : FromOrder t vw) (hc : correctWord t y = .ok (e, o)) :
    BlockOutputsAreCodewords t (x.recordDecoder e o) := by
  obtain ⟨henc, -, -⟩ := hx
  obtain ⟨hvalid, -, -, hsentinel⟩ := ht.correctWord_near_input y o e hc
  refine ⟨henc, fun w hw => ?_, fun htwo => ?_⟩
  · exact Option.some.inj hw ▸ hvalid
  · exact congrArg some (hsentinel (Option.some.inj htwo))

/-- Each operation drives a packed word or an answer of CORRECT, and changes no other output. -/
theorem exec_keeps_outputsAreCodewords (i : Instr) (s u : State) (hs : OutputsAreCodewords s)
    (h : exec i s = .next u) : OutputsAreCodewords u := by
  obtain ⟨ha, hb, hc⟩ := hs
  cases i with
  | packA =>
    obtain ⟨value, tag, -, -, rfl⟩ := (exec_packA_next_iff s u).mp h
    exact ⟨ha.recordEncoder fromOrder_tablesA value tag, hb, hc⟩
  | correctA =>
    obtain ⟨_, _, _, -, hans, rfl⟩ := (exec_correctA_next_iff s u).mp h
    exact ⟨ha.recordDecoder fromOrder_tablesA hans, hb, hc⟩
  | packB =>
    obtain ⟨value, tag, -, -, rfl⟩ := (exec_packB_next_iff s u).mp h
    exact ⟨ha, hb.recordEncoder fromOrder_tablesB value tag, hc⟩
  | correctB =>
    obtain ⟨_, _, _, -, hans, rfl⟩ := (exec_correctB_next_iff s u).mp h
    exact ⟨ha, hb.recordDecoder fromOrder_tablesB hans, hc⟩
  | packC =>
    obtain ⟨value, tag, -, -, rfl⟩ := (exec_packC_next_iff s u).mp h
    exact ⟨ha, hb, hc.recordEncoder fromOrder_tablesC value tag⟩
  | correctC =>
    obtain ⟨_, _, _, -, hans, rfl⟩ := (exec_correctC_next_iff s u).mp h
    exact ⟨ha, hb, hc.recordDecoder fromOrder_tablesC hans⟩

/-- The record of stops is no port. -/
theorem OutputsAreCodewords.putStops {s : State} (hs : OutputsAreCodewords s) (stops : List Stop) :
    OutputsAreCodewords (s.putStops stops) := hs

end Sys2Proof.Safety
end

section
/-! The statements of the family 41_decoder on what CORRECT answers. -/

open Sys2Proof Sys2Proof.Machine Sys2Proof.Safety

/-- Settles O24: a packed word is valid, a valid word is the packed word of its fields, and packing is injective. -/
theorem packedWordsDecodeUnchanged : Obligations.PackedWordsDecodeUnchanged := by
  have hA := fromOrder_tablesA
  have hB := fromOrder_tablesB
  have hC := fromOrder_tablesC
  exact ⟨⟨fun _ v g hy => exec_correctA_of_answer hy (correctWord_of_no_error (hA.validCodeword_packWord v g)),
      hA.validCodeword_iff, hA.card_validCodeword⟩,
    ⟨fun _ v g hy => exec_correctB_of_answer hy (correctWord_of_no_error (hB.validCodeword_packWord v g)),
      hB.validCodeword_iff, hB.card_validCodeword⟩,
    ⟨fun _ v g hy => exec_correctC_of_answer hy (correctWord_of_no_error (hC.validCodeword_packWord v g)),
      hC.validCodeword_iff, hC.card_validCodeword⟩⟩

/-- Settles O25: the flipped bit is the one of the syndrome it produces. -/
theorem everySingleFlipIsCorrected : Obligations.EverySingleFlipIsCorrected := by
  obtain ⟨-, hA, -⟩ := fromOrder_tablesA.secDedLaws
  obtain ⟨-, hB, -⟩ := fromOrder_tablesB.secDedLaws
  obtain ⟨-, hC, -⟩ := fromOrder_tablesC.secDedLaws
  exact ⟨⟨fun _ v g p hp hy => exec_correctA_of_answer hy (hA v g p hp), fromOrder_tablesA.syndrome_packWord_tagFlip⟩,
    ⟨fun _ v g p hp hy => exec_correctB_of_answer hy (hB v g p hp), fromOrder_tablesB.syndrome_packWord_tagFlip⟩,
    ⟨fun _ v g p hp hy => exec_correctC_of_answer hy (hC v g p hp), fromOrder_tablesC.syndrome_packWord_tagFlip⟩⟩

/-- Settles O43: every operation and the record of stops keep the invariant, so every step does. -/
theorem stepKeepsOutputsCodewords : Obligations.StepKeepsOutputsCodewords :=
  fun _ _ hs h => step_keeps exec_keeps_outputsAreCodewords (fun _ stops hs => hs.putStops stops) hs h

/-- Settles O44: PACK takes the packed word, the channel drives it on the decoder, and CORRECT answers whatever came. -/
theorem channelWithAtMostTwoFlipsIsRecoveredOrReported :
    Obligations.ChannelWithAtMostTwoFlipsIsRecoveredOrReported := by
  refine ⟨fun s v g flips hv hg => ?_, fun s v g flips hv hg => ?_, fun s v g flips hv hg => ?_⟩
  · obtain ⟨-, -, -, hanswers⟩ := fromOrder_tablesA.secDedLaws
    obtain ⟨⟨e, o⟩, hc⟩ := hanswers (flipBits (packA v g) flips)
    exact ⟨_, _, (exec_packA_next_iff s _).mpr ⟨v, g, hv, hg, rfl⟩, rfl, exec_correctA_of_answer rfl hc,
      fromOrder_tablesA.channelResult _ v g flips hc⟩
  · obtain ⟨-, -, -, hanswers⟩ := fromOrder_tablesB.secDedLaws
    obtain ⟨⟨e, o⟩, hc⟩ := hanswers (flipBits (packB v g) flips)
    exact ⟨_, _, (exec_packB_next_iff s _).mpr ⟨v, g, hv, hg, rfl⟩, rfl, exec_correctB_of_answer rfl hc,
      fromOrder_tablesB.channelResult _ v g flips hc⟩
  · obtain ⟨-, -, -, hanswers⟩ := fromOrder_tablesC.secDedLaws
    obtain ⟨⟨e, o⟩, hc⟩ := hanswers (flipBits (packC v g) flips)
    exact ⟨_, _, (exec_packC_next_iff s _).mpr ⟨v, g, hv, hg, rfl⟩, rfl, exec_correctC_of_answer rfl hc,
      fromOrder_tablesC.channelResult _ v g flips hc⟩

/-- Settles O26: two different bits have different syndromes. -/
theorem everyDoubleFlipIsDetected : Obligations.EveryDoubleFlipIsDetected := by
  obtain ⟨-, -, hA, -⟩ := fromOrder_tablesA.secDedLaws
  obtain ⟨-, -, hB, -⟩ := fromOrder_tablesB.secDedLaws
  obtain ⟨-, -, hC, -⟩ := fromOrder_tablesC.secDedLaws
  exact ⟨fun _ v g p hp q hq hpq hy => exec_correctA_of_answer hy (hA v g p hp q hq hpq),
    fun _ v g p hp q hq hpq hy => exec_correctB_of_answer hy (hB v g p hp q hq hpq),
    fun _ v g p hp q hq hpq hy => exec_correctC_of_answer hy (hC v g p hp q hq hpq)⟩

/-- Settles O27: what CORRECT returns is a valid codeword. -/
theorem decodingTwiceIsIdempotent : Obligations.DecodingTwiceIsIdempotent := by
  refine ⟨fun s t o h ho => ?_, fun s t o h ho => ?_, fun s t o h ho => ?_⟩
  · obtain ⟨y, e, word, -, hc, rfl⟩ := (exec_correctA_next_iff s t).mp h
    obtain rfl := Option.some.inj ho
    exact exec_correctA_of_answer rfl (fromOrder_tablesA.correctWord_again hc)
  · obtain ⟨y, e, word, -, hc, rfl⟩ := (exec_correctB_next_iff s t).mp h
    obtain rfl := Option.some.inj ho
    exact exec_correctB_of_answer rfl (fromOrder_tablesB.correctWord_again hc)
  · obtain ⟨y, e, word, -, hc, rfl⟩ := (exec_correctC_next_iff s t).mp h
    obtain rfl := Option.some.inj ho
    exact exec_correctC_of_answer rfl (fromOrder_tablesC.correctWord_again hc)

/-- Settles O31: what CORRECT returns with each count; the two examples are evaluated. -/
theorem everyAnswerIsACodewordNearTheInput : Obligations.EveryAnswerIsACodewordNearTheInput :=
  ⟨fromOrder_tablesA.correctWord_near_input, fromOrder_tablesB.correctWord_near_input,
    fromOrder_tablesC.correctWord_near_input, rfl, rfl⟩

/-- Settles O30: the counts of any order's tables, at the widths of each variant. -/
theorem errorCountsPartitionAllWords : Obligations.ErrorCountsPartitionAllWords :=
  ⟨fromOrder_tablesA.wordsReported_eq, fromOrder_tablesB.wordsReported_eq, fromOrder_tablesC.wordsReported_eq⟩

end

section
/-! SUPPORT. The formulas of CORRECT.A, CORRECT.B and CORRECT.C: the syndrome is the word of the parities under the
parity-check rows, and the answer is that of the decision table (41_decoder R68, R70 to R73). -/

namespace Sys2Proof.Safety

open Sys2Proof.Machine

variable {n r vw : Nat}

/-- The parity-check rows of covering masks: `H[i] = M[i] | (1 << (i + 2))` (41_decoder R68). -/
def checkRows (masks : List (Word n)) : List (Word n) := masks.mapIdx fun i m => m ||| (1#n <<< (i + 2))

theorem checkRows_getElem? (masks : List (Word n)) (i : Nat) :
    (checkRows masks)[i]? = masks[i]?.map fun m => m ||| (1#n <<< (i + 2)) :=
  List.getElem?_mapIdx

section
variable {t : Tables n r} (ht : FromOrder t vw)
include ht

/-- A bit of the syndrome is the parity under its row: the mask does not hold its own check bit (41_decoder R68). -/
theorem FromOrder.getLsbD_syndrome {i : Nat} {row : Word n} (hrow : (checkRows t.masks)[i]? = some row) (y : Word n) :
    (syndrome t y).getLsbD i = parity (y &&& row) := by
  have hn := ht.width_le
  rw [checkRows_getElem?, Option.map_eq_some_iff] at hrow
  obtain ⟨m, hm, rfl⟩ := hrow
  have hi : i < r := by
    obtain ⟨hlt, -⟩ := List.getElem?_eq_some_iff.mp hm
    rwa [ht.length_masks] at hlt
  have hclear : m.getLsbD (i + 2) = false := by
    have hbit := congrArg (BitVec.getLsbD · (i + 2)) (ht.and_checkAndParityBits m (List.mem_of_getElem? hm))
    simpa [getLsbD_checkAndParityBits (show r + 1 < n by omega), show i + 2 ≤ r + 1 by omega] using hbit
  have hrow : m ||| (1#n <<< (i + 2)) = m ^^^ 1#n <<< (i + 2) := by
    refine BitVec.eq_of_getLsbD_eq fun p hp => ?_
    rw [BitVec.getLsbD_or, BitVec.getLsbD_xor, getLsbD_one_shiftLeft]
    by_cases hpi : p = i + 2
    · simp [hpi, hclear]
    · simp [hpi]
  rw [syndrome_eq_checkField_xor hn, BitVec.getLsbD_xor, getLsbD_checkField _ hi, getLsbD_checkField _ hi,
    getLsbD_checkBits_of_mask hm (by omega), hrow, BitVec.and_comm y (m ^^^ _), parity_xor_and,
    parity_one_shiftLeft_and y (by omega), BitVec.and_comm m y]

/-- What R68 says of the syndrome, from the rows and the Hamming indices of the tables' own order. -/
theorem FromOrder.syndromeLaws {rows : List (Word n)} {indices : List (Option Nat)} (hrows : rows = checkRows t.masks)
    (hindices : ∀ p < n, p ≠ 1 → indices[p]? = some (some (syndrome t (1#n <<< p)).toNat)) :
    SyndromeLaws t rows indices := by
  have hn := ht.width_le
  subst hrows
  refine ⟨fun _ => rfl, fun y i row hrow => ht.getLsbD_syndrome hrow y, fun i row m hrow hm => ?_, ?_,
    syndrome_xor hn t, hindices, ?_, fun w e hw => ?_⟩
  · rw [checkRows_getElem?, hm] at hrow
    exact (Option.some.inj hrow).symm
  · rw [checkRows, List.length_mapIdx, ht.length_masks]
  · obtain ⟨order, -, -, rfl⟩ := ht.exists_order
    exact syndrome_parity_bit hn
  · obtain ⟨-, hsyn⟩ := hw
    rw [syndrome_xor hn, hsyn]
    exact BitVec.zero_xor

end

/-- The list of Hamming indices gives the syndrome of each bit but the parity bit (41_decoder R68). -/
theorem getElem?_hammingIndices {order : List Nat} (horder : ValidOrder r order) (hr : 2 ≤ r)
    (hn : Config.posVal r + order.length = n) {p : Nat} (hp : p < n) (hpar : p ≠ 1) :
    ((List.range n).map (hammingIndex r order))[p]? =
      some (some (syndrome (Tables.ofOrder n r order) (1#n <<< p)).toNat) := by
  rw [List.getElem?_map, List.getElem?_range hp, Option.map_some,
    ValidOrder.hammingIndex_eq_syndrome horder hr hn hp hpar]

/-- The syndrome written out from the top bit down: the parities under the rows (41_decoder R71 to R73). -/
theorem FromOrder.append_eq_syndrome {m : Nat} {t : Tables n m} (ht : FromOrder t vw) {top : Bool} {bits : List Bool}
    {f : Word m} {y : Word n} (hf : AppendsBits (BitVec.ofBool top) bits f)
    (hbits : bits ++ [top] = (checkRows t.masks).map fun row => parity (y &&& row)) : f = syndrome t y := by
  have hwidth := hf.width
  refine BitVec.eq_of_getLsbD_eq fun i hi => ?_
  have hbit : (bits ++ [top])[i]? = some (f.getLsbD i) := by
    by_cases hlow : i < bits.length
    · rw [hf.getLsbD_bits hlow, List.getElem?_append_left hlow, List.getElem?_eq_getElem hlow]
    · obtain rfl : i = bits.length := by omega
      have htop := hf.getLsbD_above 0
      rw [Nat.add_zero] at htop
      rw [htop]
      cases top <;> simp
  rw [hbits, List.getElem?_map, Option.map_eq_some_iff] at hbit
  obtain ⟨row, hrow, hpar⟩ := hbit
  rw [← hpar, ht.getLsbD_syndrome hrow]

/-- CORRECT answers the decision table where the position map is given in closed form (41_decoder R70). -/
theorem correctWord_eq_decisionTable {t : Tables n r} {position : Nat → Nat}
    (hpos : ∀ syn : Word r, syn ≠ 0 → errorPosition t syn = some (position syn.toNat)) (y : Word n) :
    correctWord t y = .ok (decisionTable (parity y) (syndrome t y) position y) := by
  by_cases hsyn : syndrome t y = 0 <;> cases hpar : parity y
  · rw [correctWord_of_no_error ⟨hpar, hsyn⟩, decisionTable, if_pos rfl, if_pos hsyn]
  · rw [correctWord_of_parity_error hpar hsyn, decisionTable, if_neg Bool.noConfusion, if_pos hsyn]
    rfl
  · rw [correctWord_of_double_error hpar hsyn, decisionTable, if_pos rfl, if_neg hsyn]
  · rw [correctWord_of_located_error hpar hsyn (hpos _ hsyn), decisionTable, if_neg Bool.noConfusion, if_neg hsyn]
    rfl

end Sys2Proof.Safety
end

section
/-! The statements of the family 41_decoder on the syndrome and on the formulas of the three operations. -/

open Sys2Proof Sys2Proof.Machine Sys2Proof.Safety

/-- Settles O23: the listed rows are the masks with their check bits, and the listed indices those of the ascending order. -/
theorem syndromeIsLinearWithOneIndexPerPosition : Obligations.SyndromeIsLinearWithOneIndexPerPosition := by
  obtain ⟨hA, -, hB, -, hC, -⟩ := tablesComeFromTheAscendingOrder
  have hindices (v : Variant) {p : Nat} (hp : p < v.n) (hpar : p ≠ 1) :=
    getElem?_hammingIndices (List.Perm.refl (valueSyndromes v.r)) (fromOrder_default v).two_le
      (posVal_add_length_valueSyndromes v) hp hpar
  refine ⟨fromOrder_tablesA.syndromeLaws (by decide) ?_, fromOrder_tablesB.syndromeLaws (by decide) ?_,
    fromOrder_tablesC.syndromeLaws (by decide) ?_⟩
  · rw [hA, tablesA_eq_ofOrder]
    exact fun p => hindices .A
  · rw [hB, tablesB_eq_ofOrder]
    exact fun p => hindices .B
  · rw [hC, tablesC_eq_ofOrder]
    exact fun p => hindices .C

/-- Settles O20: SYN is the syndrome, and the position map is the listed one at each nonzero syndrome. -/
theorem correctAFollowsItsFormula : Obligations.CorrectAFollowsItsFormula := by
  refine ⟨?_, rfl, rfl, rfl⟩
  intro s y hy SYN answer
  have hsyn : SYN = syndrome tablesA y := fromOrder_tablesA.append_eq_syndrome (.append _ (.append _ .nil)) rfl
  have hanswer : correctWord tablesA y = .ok (decisionTable (parity y) SYN rulePositionA y) := by
    rw [hsyn]
    exact correctWord_eq_decisionTable (by decide) y
  exact exec_correctA_of_answer hy hanswer

/-- Settles O21: SYN is the syndrome, and the position map is the listed one at each nonzero syndrome. -/
theorem correctBFollowsItsFormula : Obligations.CorrectBFollowsItsFormula := by
  refine ⟨?_, rfl, rfl⟩
  intro s y hy SYN answer
  have hsyn : SYN = syndrome tablesB y :=
    fromOrder_tablesB.append_eq_syndrome (.append _ (.append _ (.append _ .nil))) rfl
  have hanswer : correctWord tablesB y = .ok (decisionTable (parity y) SYN rulePositionB y) := by
    rw [hsyn]
    exact correctWord_eq_decisionTable (by decide) y
  exact exec_correctB_of_answer hy hanswer

/-- Settles O22: SYN is the syndrome, and the position map is the listed one at each nonzero syndrome. -/
theorem correctCFollowsItsFormula : Obligations.CorrectCFollowsItsFormula := by
  refine ⟨?_, rfl, rfl⟩
  intro s y hy SYN answer
  have hsyn : SYN = syndrome tablesC y :=
    fromOrder_tablesC.append_eq_syndrome (.append _ (.append _ (.append _ (.append _ (.append _ .nil))))) rfl
  have hanswer : correctWord tablesC y = .ok (decisionTable (parity y) SYN rulePositionC y) := by
    rw [hsyn]
    exact correctWord_eq_decisionTable (by decide) y
  exact exec_correctC_of_answer hy hanswer

end

section
/-! SUPPORT. The invariant violation: where a word gets no answer, that a run ends at its first fault, and that the only
fault of an operation is an undriven input (60_exceptions R82, R83). -/

namespace Sys2Proof.Machine

variable {n r vw : Nat} {t : Tables n r} {v : Variant}

/-! ### Where a word gets no answer -/

/-- An odd word whose nonzero syndrome has no position is not answered (60_exceptions R82). -/
theorem correctWord_of_unmapped {y : Word n} (hpar : parity y = true) (hsyn : syndrome t y ≠ 0)
    (hnone : errorPosition t (syndrome t y) = none) : correctWord t y = .error (syndrome t y) := by
  simp only [correctWord, hpar, decisionRow_located hsyn, hnone]

/-- One CORRECT on a word that is not answered carries the syndrome in its fault (60_exceptions R82). -/
theorem runCorrect_of_unanswered {b : Block n vw} {y : Word n} {syn : Word r} (hy : b.decIn = some y)
    (hc : correctWord t y = .error syn) : runCorrect t v b = .error (.invariantViolation v syn.toNat) := by
  have hread : b.readDecoder v = .ok y := (readDecoder_ok_iff v b y).mpr hy
  simp only [runCorrect, hread, hc]

/-- A machine whose step faults answers that fault, however many steps it is given. -/
theorem run_succ_of_step_fault {s : State} {f : Fault} (h : step s = .fault f) (k : Nat) :
    (Host.Core.run core (k + 1) s : Host.Outcome State Fault Refusal) = .fault f := by
  have hcore : core.step s = .fault f := h
  simp only [Host.Core.run, hcore]

/-! ### What an operation's fault can be -/

/-- PACK stops on an undriven input alone. -/
theorem runPack_error_eq_inputNotDriven {b : Block n vw} {f : Fault} (h : runPack t v b = .error f) :
    ∃ p, f = .inputNotDriven v p := by
  cases hread : b.readEncoder v with
  | error g =>
    obtain rfl : g = f := by simpa [runPack, hread] using h
    obtain ⟨-, hf⟩ | ⟨-, -, hf⟩ := (readEncoder_error_iff v b g).mp hread
    · exact ⟨_, hf⟩
    · exact ⟨_, hf⟩
  | ok inputs => simp [runPack, hread] at h

/-- With tables that answer every word, CORRECT stops on an undriven input alone (60_exceptions R83). -/
theorem runCorrect_error_eq_inputNotDriven (hanswers : ∀ y : Word n, ∃ answer, correctWord t y = .ok answer)
    {b : Block n vw} {f : Fault} (h : runCorrect t v b = .error f) : ∃ p, f = .inputNotDriven v p := by
  cases hread : b.readDecoder v with
  | error g =>
    obtain rfl : g = f := by simpa [runCorrect, hread] using h
    obtain ⟨-, hf⟩ := (readDecoder_error_iff v b g).mp hread
    exact ⟨_, hf⟩
  | ok y =>
    obtain ⟨answer, hc⟩ := hanswers y
    simp [runCorrect, hread, hc] at h

end Sys2Proof.Machine

namespace Sys2Proof.Safety

open Sys2Proof.Machine

/-- With the tables of A, B and C, an operation stops on an undriven input alone (60_exceptions R83). -/
theorem exec_fault_eq_inputNotDriven {i : Instr} {s : State} {f : Fault} (h : exec i s = .fault f) :
    ∃ v p, f = .inputNotDriven v p := by
  obtain ⟨-, -, -, hA⟩ := fromOrder_tablesA.secDedLaws
  obtain ⟨-, -, -, hB⟩ := fromOrder_tablesB.secDedLaws
  obtain ⟨-, -, -, hC⟩ := fromOrder_tablesC.secDedLaws
  cases i with
  | packA => exact ⟨_, runPack_error_eq_inputNotDriven ((finish_fault_iff _ _ f).mp h)⟩
  | correctA => exact ⟨_, runCorrect_error_eq_inputNotDriven hA ((finish_fault_iff _ _ f).mp h)⟩
  | packB => exact ⟨_, runPack_error_eq_inputNotDriven ((finish_fault_iff _ _ f).mp h)⟩
  | correctB => exact ⟨_, runCorrect_error_eq_inputNotDriven hB ((finish_fault_iff _ _ f).mp h)⟩
  | packC => exact ⟨_, runPack_error_eq_inputNotDriven ((finish_fault_iff _ _ f).mp h)⟩
  | correctC => exact ⟨_, runCorrect_error_eq_inputNotDriven hC ((finish_fault_iff _ _ f).mp h)⟩

theorem FromOrder.exists_errorPosition {n r vw : Nat} {t : Tables n r} (ht : FromOrder t vw) (syn : Word r)
    (hsyn : syn ≠ 0) : ∃ p < n, errorPosition t syn = some p := by
  obtain ⟨order, horder, hn, rfl⟩ := ht.exists_order
  exact Safety.exists_errorPosition horder hn hsyn

end Sys2Proof.Safety
end

section
/-! SUPPORT. A step answers by what is requested and not by how it is listed, and what it answers when nothing requested
completes (60_exceptions R86, log entry 10). -/

namespace Sys2Proof.Machine

/-! ### The requested bytes, whatever the list -/

/-- Inserting a byte keeps the ascending order without repeats. -/
theorem pairwise_insertByte (byte : Byte) {bytes : List Byte} (h : bytes.Pairwise (· < ·)) :
    (insertByte byte bytes).Pairwise (· < ·) := by
  induction bytes with
  | nil => exact List.pairwise_singleton _ _
  | cons b bs ih =>
    obtain ⟨hb, hbs⟩ := List.pairwise_cons.mp h
    rw [insertByte]
    split
    · next hlt =>
      refine List.pairwise_cons.mpr ⟨fun x hx => ?_, h⟩
      obtain rfl | hx := List.mem_cons.mp hx
      · exact hlt
      · exact BitVec.lt_trans hlt (hb x hx)
    · split
      · exact h
      · next hge hne =>
        refine List.pairwise_cons.mpr ⟨fun x hx => ?_, ih hbs⟩
        obtain rfl | hx := (mem_insertByte x byte bs).mp hx
        · bv_omega
        · exact hb x hx

theorem pairwise_requestedBytes (bytes : List Byte) : (requestedBytes bytes).Pairwise (· < ·) := by
  induction bytes with
  | nil => exact .nil
  | cons b bs ih => exact pairwise_insertByte b ih

/-- What is requested depends on the members of the list alone (60_exceptions R86). -/
theorem requestedBytes_congr {l l' : List Byte} (h : ∀ b, b ∈ l ↔ b ∈ l') : requestedBytes l = requestedBytes l' :=
  (pairwise_requestedBytes l).eq_of_mem_iff (pairwise_requestedBytes l') fun b => by
    rw [mem_requestedBytes, mem_requestedBytes, h]

theorem exists_requestedBytes_eq_cons_cons {l : List Byte} {x y : Byte} (hx : x ∈ l) (hy : y ∈ l) (hne : x ≠ y) :
    ∃ b b' bs, requestedBytes l = b :: b' :: bs := by
  rw [← mem_requestedBytes] at hx hy
  match hl : requestedBytes l with
  | [] => simp [hl] at hx
  | [b] =>
    simp only [hl, List.mem_singleton] at hx hy
    exact absurd (hx.trans hy.symm) hne
  | b :: b' :: bs => exact ⟨b, b', bs, rfl⟩

/-! ### The bytes that are no operation -/

theorem mem_decodeErrors {e : DecodeError} {bytes : List Byte} :
    e ∈ decodeErrors bytes ↔ ∃ b ∈ bytes, decode b = .error e := by
  rw [decodeErrors, List.mem_filterMap]
  refine exists_congr fun b => and_congr_right fun _ => ?_
  cases decode b <;> simp

/-- Every byte has a reason not to be an operation exactly when none is the byte of one. -/
theorem length_decodeErrors_eq_iff (bytes : List Byte) :
    (decodeErrors bytes).length = bytes.length ↔ ∀ i, encode i ∉ bytes := by
  rw [decodeErrors, List.filterMap_length_eq_length]
  constructor
  · intro h i hi
    simpa using h _ hi
  · intro h b hb
    cases hd : decode b with
    | error e => simp
    | ok i => exact absurd ((decode_eq_ok_iff b i).mp hd ▸ hb) (h i)

theorem noneCompletes_of_no_operation {bytes : List Byte} (h : ∀ i, encode i ∉ bytes) (s : State) :
    noneCompletes bytes s = .refused (.noOperation (decodeErrors bytes)) :=
  if_pos ((length_decodeErrors_eq_iff bytes).mpr h)

theorem noneCompletes_of_operation {bytes : List Byte} {i : Instr} (h : encode i ∈ bytes) (s : State) :
    noneCompletes bytes s = .fault (.noneCompleted (bytes.flatMap fun b => stopsOf (answer b s))) :=
  if_neg fun hlen => (length_decodeErrors_eq_iff bytes).mp hlen i h

/-! ### A step of several requested bytes -/

/-- A byte completes exactly when it is an operation that does. -/
theorem completes_eq_true_iff (s : State) (byte : Byte) :
    completes s byte = true ↔ ∃ i u, byte = encode i ∧ exec i s = .next u := by
  have hnext : completes s byte = true ↔ ∃ u, answer byte s = .next u := by
    unfold completes
    cases answer byte s <;> simp
  simp only [hnext, answer_next_iff, decode_eq_ok_iff]
  exact exists_comm

theorem step_of_several {s : State} {b b' : Byte} {bs : List Byte} (h : requestedBytes s.request = b :: b' :: bs) :
    step s = if (requestedBytes s.request).any (completes s)
      then .next (takeAnswers (requestedBytes s.request) (beginStep s))
      else noneCompletes (requestedBytes s.request) s := by
  simp only [step, runRequest, h]

/-- A step that requests two different bytes or more, no operation among them completing. -/
theorem step_of_none_completing {s : State} {x y : Byte} (hx : x ∈ s.request) (hy : y ∈ s.request) (hne : x ≠ y)
    (hnone : ∀ (i : Instr) (u : State), encode i ∈ s.request → exec i s ≠ .next u) :
    step s = noneCompletes (requestedBytes s.request) s := by
  obtain ⟨b, b', bs, hmany⟩ := exists_requestedBytes_eq_cons_cons hx hy hne
  rw [step_of_several hmany, if_neg]
  intro hany
  obtain ⟨byte, hbyte, hcompletes⟩ := List.any_eq_true.mp hany
  obtain ⟨i, u, rfl, hu⟩ := (completes_eq_true_iff s byte).mp hcompletes
  exact hnone i u ((mem_requestedBytes _ _).mp hbyte) hu

/-! ### A step under another list as its request -/

/-- An outcome with another list as the request of its next state; a stop is as it was. -/
def withRequest (bytes : List Byte) : Host.Outcome State Fault Refusal → Host.Outcome State Fault Refusal
  | .next s => .next (s.putRequest bytes)
  | .fault f => .fault f
  | .refused q => .refused q

end Sys2Proof.Machine

namespace Sys2Proof.Safety

open Sys2Proof.Machine

/-- An operation answers the same whatever is requested, be it a result or a stop. -/
theorem exec_putRequest_eq (i : Instr) (s : State) (bytes : List Byte) :
    exec i (s.putRequest bytes) = withRequest bytes (exec i s) := by
  cases hx : exec i s with
  | next t => exact exec_putRequest hx bytes
  | fault f => exact exec_fault_congr (sameUnitInputs_putRequest i s bytes) hx
  | refused q => exact absurd hx (exec_ne_refused i s q)

theorem answer_putRequest (byte : Byte) (s : State) (bytes : List Byte) :
    answer byte (s.putRequest bytes) = withRequest bytes (answer byte s) := by
  cases hd : decode byte with
  | error e => simp only [answer_of_decode_error hd, withRequest]
  | ok i => simp only [answer_of_decode hd, exec_putRequest_eq]

theorem completes_putRequest (s : State) (bytes : List Byte) : completes (s.putRequest bytes) = completes s := by
  funext byte
  unfold completes
  rw [answer_putRequest]
  cases answer byte s <;> rfl

theorem recordStop_putRequest (stop : Stop) (s : State) (bytes : List Byte) :
    recordStop stop (s.putRequest bytes) = (recordStop stop s).putRequest bytes := by
  unfold recordStop
  rw [State.putRequest_stops, apply_ite (State.putRequest · bytes)]
  rfl

theorem recordStops_putRequest (stops : List Stop) (s : State) (bytes : List Byte) :
    recordStops stops (s.putRequest bytes) = (recordStops stops s).putRequest bytes := by
  induction stops generalizing s with
  | nil => rfl
  | cons stop stops ih => rw [recordStops, recordStops, recordStop_putRequest, ih]

theorem takeAnswer_putRequest (byte : Byte) (s : State) (bytes : List Byte) :
    takeAnswer byte (s.putRequest bytes) = (takeAnswer byte s).putRequest bytes := by
  unfold takeAnswer
  rw [answer_putRequest]
  cases answer byte s with
  | next t => rfl
  | fault f => exact recordStops_putRequest f.stops s bytes
  | refused q => exact recordStop_putRequest (.byRefusal q) s bytes

theorem takeAnswers_putRequest (taken : List Byte) (s : State) (bytes : List Byte) :
    takeAnswers taken (s.putRequest bytes) = (takeAnswers taken s).putRequest bytes := by
  induction taken generalizing s with
  | nil => rfl
  | cons b bs ih => rw [takeAnswers, takeAnswers, takeAnswer_putRequest, ih]

theorem noneCompletes_putRequest (taken : List Byte) (s : State) (bytes : List Byte) :
    noneCompletes taken (s.putRequest bytes) = withRequest bytes (noneCompletes taken s) := by
  have hstops (b : Byte) : stopsOf (answer b (s.putRequest bytes)) = stopsOf (answer b s) := by
    rw [answer_putRequest]
    cases answer b s <;> rfl
  simp only [noneCompletes, hstops]
  split <;> rfl

theorem beginStep_putRequest (s : State) (bytes : List Byte) :
    beginStep (s.putRequest bytes) = (beginStep s).putRequest bytes := rfl

/-- A step under a list with the same members answers the same, with that list standing as the request. -/
theorem step_putRequest {s : State} {bytes : List Byte} (h : ∀ b, b ∈ bytes ↔ b ∈ s.request) :
    step (s.putRequest bytes) = withRequest bytes (step s) := by
  have hreq : requestedBytes (s.putRequest bytes).request = requestedBytes s.request := requestedBytes_congr h
  match hl : requestedBytes s.request with
  | [] => simp only [step, runRequest, hreq, hl, beginStep_putRequest, withRequest]
  | [b] => simp only [step, runRequest, hreq, hl, beginStep_putRequest, answer_putRequest]
  | b :: b' :: bs =>
    rw [step_of_several (hreq.trans hl), step_of_several hl, hreq, completes_putRequest, beginStep_putRequest,
      takeAnswers_putRequest, noneCompletes_putRequest, apply_ite (withRequest bytes), withRequest]

end Sys2Proof.Safety
end

section
/-! The statements of the family 60_exceptions. -/

open Sys2Proof Sys2Proof.Machine Sys2Proof.Safety

/-- Settles O7: the step is noneCompletes, which names the reason of each byte; it is a refusal exactly when every byte
fails to decode. -/
theorem stepWithNoResultNamesEveryStop : Obligations.StepWithNoResultNamesEveryStop := by
  intro s x y hx hy hne hnone
  have hstep := step_of_none_completing hx hy hne hnone
  refine ⟨fun hno => ?_, fun ⟨i, hi⟩ => ?_⟩
  · have hbytes : ∀ i, encode i ∉ requestedBytes s.request := fun i hi => hno i ((mem_requestedBytes _ _).mp hi)
    refine ⟨_, hstep.trans (noneCompletes_of_no_operation hbytes s), fun byte e hbyte hdec => ?_⟩
    exact mem_decodeErrors.mpr ⟨byte, (mem_requestedBytes _ _).mpr hbyte, hdec⟩
  · have hmem (byte : Byte) (hbyte : byte ∈ s.request) (stop : Stop) (hstop : stop ∈ stopsOf (answer byte s)) :
        stop ∈ (requestedBytes s.request).flatMap fun b => stopsOf (answer b s) :=
      List.mem_flatMap.mpr ⟨byte, (mem_requestedBytes _ _).mpr hbyte, hstop⟩
    refine ⟨_, hstep.trans (noneCompletes_of_operation ((mem_requestedBytes _ _).mpr hi) s), ?_, ?_⟩
    · intro j f hj hf stop hstop
      exact hmem _ hj stop (by rwa [answer_encode, hf])
    · intro byte e hbyte hdec
      exact hmem byte hbyte _ (by simp [answer_of_decode_error hdec, stopsOf])

/-- Settles O8: the requested bytes are those of either list, and no answer reads the list. -/
theorem orderOfTheRequestDoesNotMatter : Obligations.OrderOfTheRequestDoesNotMatter := by
  intro s bytes hbytes
  rw [step_putRequest hbytes]
  exact ⟨fun t => congrArg (withRequest bytes), fun f => congrArg (withRequest bytes),
    fun q => congrArg (withRequest bytes)⟩

/-- Settles O28: the only fault of an operation is an undriven input, since every nonzero syndrome has a position. -/
theorem invariantViolationIsUnreachable : Obligations.InvariantViolationIsUnreachable := by
  refine ⟨fun i s v syn h => ?_, fromOrder_tablesA.exists_errorPosition, fromOrder_tablesB.exists_errorPosition,
    fromOrder_tablesC.exists_errorPosition⟩
  obtain ⟨_, _, hf⟩ := exec_fault_eq_inputNotDriven h
  cases hf

/-- Settles O29: the word has no answer, and a run ends at its first fault. -/
theorem unmappedSyndromeFaultsForGood : Obligations.UnmappedSyndromeFaultsForGood :=
  ⟨fun _ _ _ _ _ _ _ hy hpar hsyn hnone => runCorrect_of_unanswered hy (correctWord_of_unmapped hpar hsyn hnone),
    fun _ _ k h => run_succ_of_step_fault h k⟩

end

section
/-! SUPPORT. What the family 70_reset_and_hazards rests on: an operation completes or is stuck on an undriven input of its
unit (R93), what an output shows when it is sampled (R95), and which connections close a combinational loop (R97). -/

namespace Sys2Proof.Safety

open Sys2Proof.Machine

variable {n r vw : Nat}

/-! ### Completing or being stuck -/

/-- What one unit of variant `v` did on a block: with every input of it driven it has a result, or it is stuck on one that is
not (70_reset_and_hazards R93). -/
def CompletesOrStuck (u : CodecUnit) (v : Variant) (b : Block n vw) (result : Except Fault (Block n vw)) : Prop :=
  ((∀ p : InPort, p.unit = u → portDriven b p = true) ∧ ∃ x, result = .ok x) ∨
  ∃ p : InPort, result = .error (.inputNotDriven v p) ∧ p.unit = u ∧ portDriven b p = false

theorem completesOrStuck_runPack (t : Tables n r) (v : Variant) (b : Block n vw) :
    CompletesOrStuck .encoder v b (runPack t v b) := by
  cases hread : b.readEncoder v with
  | error f =>
    have hrun : runPack t v b = .error f := by simp only [runPack, hread]
    obtain ⟨hnone, rfl⟩ | ⟨-, hnone, rfl⟩ := (readEncoder_error_iff v b f).mp hread
    · exact .inr ⟨.encValue, hrun, rfl, by simp [portDriven, hnone]⟩
    · exact .inr ⟨.encTag, hrun, rfl, by simp [portDriven, hnone]⟩
  | ok inputs =>
    obtain ⟨hv, hg⟩ := (readEncoder_ok_iff v b inputs.1 inputs.2).mp hread
    refine .inl ⟨fun p hp => ?_, _, (runPack_ok_iff t v b _).mpr ⟨_, _, hv, hg, rfl⟩⟩
    cases p with
    | encValue => simp [portDriven, hv]
    | encTag => simp [portDriven, hg]
    | decIn => cases hp

/-- With tables that answer every word, the decoder has nothing else to stop on (60_exceptions R83). -/
theorem completesOrStuck_runCorrect {t : Tables n r} (hanswers : ∀ y : Word n, ∃ answer, correctWord t y = .ok answer)
    (v : Variant) (b : Block n vw) : CompletesOrStuck .decoder v b (runCorrect t v b) := by
  cases hread : b.readDecoder v with
  | error f =>
    have hrun : runCorrect t v b = .error f := by simp only [runCorrect, hread]
    obtain ⟨hnone, rfl⟩ := (readDecoder_error_iff v b f).mp hread
    exact .inr ⟨.decIn, hrun, rfl, by simp [portDriven, hnone]⟩
  | ok y =>
    have hy : b.decIn = some y := (readDecoder_ok_iff v b y).mp hread
    obtain ⟨⟨count, word⟩, hc⟩ := hanswers y
    refine .inl ⟨fun p hp => ?_, _, (runCorrect_ok_iff t v b _).mpr ⟨y, count, word, hy, hc, rfl⟩⟩
    cases p with
    | encValue => cases hp
    | encTag => cases hp
    | decIn => simp [portDriven, hy]

/-- Putting a unit's result back into the state completes the operation, and being stuck is its fault. -/
theorem CompletesOrStuck.finish {u : CodecUnit} {v : Variant} {b : Block n vw} {result : Except Fault (Block n vw)}
    (h : CompletesOrStuck u v b result) (put : Block n vw → State) :
    ((∀ p : InPort, p.unit = u → portDriven b p = true) ∧ ∃ t, Machine.finish result put = .next t) ∨
    ∃ p : InPort, Machine.finish result put = .fault (.inputNotDriven v p) ∧ p.unit = u ∧ portDriven b p = false := by
  obtain ⟨hdriven, x, rfl⟩ | ⟨p, rfl, hunit, hundriven⟩ := h
  · exact .inl ⟨hdriven, put x, rfl⟩
  · exact .inr ⟨p, rfl, hunit, hundriven⟩

/-- Each operation completes with all its inputs driven, or is stuck on one that is not (70_reset_and_hazards R93). -/
theorem exec_completes_or_stuck (i : Instr) (s : State) :
    (InputsDriven i s ∧ ∃ t, exec i s = .next t) ∨
    ∃ p : InPort, exec i s = .fault (.inputNotDriven i.variant p) ∧ p.unit = i.unit ∧ driven s i.variant p = false := by
  obtain ⟨-, -, -, hA⟩ := fromOrder_tablesA.secDedLaws
  obtain ⟨-, -, -, hB⟩ := fromOrder_tablesB.secDedLaws
  obtain ⟨-, -, -, hC⟩ := fromOrder_tablesC.secDedLaws
  cases i with
  | packA => exact (completesOrStuck_runPack tablesA .A s.a).finish s.putA
  | correctA => exact (completesOrStuck_runCorrect hA .A s.a).finish s.putA
  | packB => exact (completesOrStuck_runPack tablesB .B s.b).finish s.putB
  | correctB => exact (completesOrStuck_runCorrect hB .B s.b).finish s.putB
  | packC => exact (completesOrStuck_runPack tablesC .C s.c).finish s.putC
  | correctC => exact (completesOrStuck_runCorrect hC .C s.c).finish s.putC

/-! ### Power-up -/

theorem portDriven_undriven (n vw : Nat) (p : InPort) : portDriven (Block.undriven n vw) p = false := by
  cases p <;> rfl

theorem driven_reset (v : Variant) (p : InPort) : driven State.reset v p = false := by
  cases v with
  | A => exact portDriven_undriven 8 3 p
  | B => exact portDriven_undriven 16 10 p
  | C => exact portDriven_undriven 64 56 p

end Sys2Proof.Safety

namespace Sys2Proof.Machine

variable {n r vw : Nat} {b : Block n vw}

/-- A step with nothing requested only takes the stops that are not final off the record. -/
theorem step_of_request_nil {s : State} (h : s.request = []) : step s = .next (beginStep s) := by
  simp only [step, runRequest, h, requestedBytes]

/-! ### Sampling -/

theorem sample_of_settled {m elapsed : Nat} {v : Variant} (h : Config.tSettle v ≤ elapsed) (settled : Word m) (s : State) :
    sample v elapsed settled s = (settled, s) :=
  if_pos h

theorem sample_of_early {m elapsed : Nat} {v : Variant} (h : elapsed < Config.tSettle v) (settled : Word m) (s : State) :
    sample v elapsed settled s = (Config.unsettled m s.draws, { s with draws := s.draws + 1 }) :=
  if_neg (Nat.not_le.mpr h)

theorem sampleEncCw_of_driven {value : Word vw} {tag : Word 1} (hv : b.encValue = some value) (hg : b.encTag = some tag)
    (t : Tables n r) (v : Variant) (elapsed : Nat) (s : State) :
    sampleEncCw t v b elapsed s = .ok (sample v elapsed (packWord t value tag) s) := by
  simp only [sampleEncCw, (readEncoder_ok_iff v b value tag).mpr ⟨hv, hg⟩]

theorem sampleDecErrcnt_of_answer {t : Tables n r} {y word : Word n} {count : ErrCount} (hy : b.decIn = some y)
    (hc : correctWord t y = .ok (count, word)) (v : Variant) (elapsed : Nat) (s : State) :
    sampleDecErrcnt t v b elapsed s = .ok (sample v elapsed count.toBits s) := by
  simp only [sampleDecErrcnt, (readDecoder_ok_iff v b y).mpr hy, hc]

theorem sampleDecOut_of_answer {t : Tables n r} {y word : Word n} {count : ErrCount} (hy : b.decIn = some y)
    (hc : correctWord t y = .ok (count, word)) (v : Variant) (elapsed : Nat) (s : State) :
    sampleDecOut t v b elapsed s = .ok (sample v elapsed word s) := by
  simp only [sampleDecOut, (readDecoder_ok_iff v b y).mpr hy, hc]

/-- ENC_CW sampled after T_SETTLE and before (70_reset_and_hazards R95). -/
theorem sampleEncCw_cases {value : Word vw} {tag : Word 1} (hv : b.encValue = some value) (hg : b.encTag = some tag)
    (t : Tables n r) (v : Variant) (elapsed : Nat) (s : State) :
    (Config.tSettle v ≤ elapsed ∧ sampleEncCw t v b elapsed s = .ok (packWord t value tag, s)) ∨
    (elapsed < Config.tSettle v ∧
      sampleEncCw t v b elapsed s = .ok (Config.unsettled n s.draws, { s with draws := s.draws + 1 })) := by
  rw [sampleEncCw_of_driven hv hg]
  exact (sample_cases v elapsed (packWord t value tag) s).imp (And.imp_right (congrArg _)) (And.imp_right (congrArg _))

/-- Both outputs of the decoder sampled after T_SETTLE and before (70_reset_and_hazards R95, R96). -/
theorem sampleDecoder_cases {t : Tables n r} {y word : Word n} {count : ErrCount} (hy : b.decIn = some y)
    (hc : correctWord t y = .ok (count, word)) (v : Variant) (elapsed : Nat) (s : State) :
    (Config.tSettle v ≤ elapsed ∧
      sampleDecErrcnt t v b elapsed s = .ok (count.toBits, s) ∧ sampleDecOut t v b elapsed s = .ok (word, s)) ∨
    (elapsed < Config.tSettle v ∧
      sampleDecErrcnt t v b elapsed s = .ok (Config.unsettled 2 s.draws, { s with draws := s.draws + 1 }) ∧
      sampleDecOut t v b elapsed s = .ok (Config.unsettled n s.draws, { s with draws := s.draws + 1 })) := by
  rw [sampleDecErrcnt_of_answer hy hc, sampleDecOut_of_answer hy hc]
  rcases Nat.lt_or_ge elapsed (Config.tSettle v) with hearly | hsettled
  · exact .inr ⟨hearly, congrArg _ (sample_of_early hearly _ s), congrArg _ (sample_of_early hearly _ s)⟩
  · exact .inl ⟨hsettled, congrArg _ (sample_of_settled hsettled _ s), congrArg _ (sample_of_settled hsettled _ s)⟩

end Sys2Proof.Machine

namespace Sys2Proof

variable {wires : List Wire}

/-! ### Connections -/

theorem mem_unitNodes (u : UnitNode) : u ∈ unitNodes := by
  obtain ⟨v, c⟩ := u
  cases v <;> cases c <;> decide

/-- A unit a path starts from is reached, by the path of no connection. -/
theorem mem_reachable_of_mem {u : UnitNode} (steps : Nat) {start : List UnitNode} (h : u ∈ start) :
    u ∈ reachable wires steps start := by
  induction steps generalizing start with
  | zero => exact h
  | succ steps ih =>
    apply ih
    rw [List.mem_filter, List.contains_iff_mem.mpr h, Bool.true_or]
    exact ⟨mem_unitNodes u, rfl⟩

/-- A connection of a unit with itself and no storage is a loop of its own (70_reset_and_hazards R97). -/
theorem wiringWellFormed_of_self_loop {w : Wire} (hw : w ∈ wires) (hunit : w.sourceUnit = w.targetUnit)
    (hstorage : w.storage = false) : wiringWellFormed wires = false := by
  have hreach : w.sourceUnit ∈ reachable wires unitNodes.length [w.targetUnit] :=
    mem_reachable_of_mem _ (List.mem_singleton.mpr hunit)
  rw [wiringWellFormed, List.all_eq_false]
  exact ⟨w, hw, by simp [hstorage, hreach]⟩

/-- Connections through storage close no loop (70_reset_and_hazards R97). -/
theorem wiringWellFormed_of_storage (h : ∀ w ∈ wires, w.storage = true) : wiringWellFormed wires = true := by
  rw [wiringWellFormed, List.all_eq_true]
  intro w hw
  rw [h w hw, Bool.true_or]

/-- The encoder's output leads to the decoder, and nothing leads back (70_reset_and_hazards R97). -/
theorem wiringWellFormed_encCw_decIn (v : Variant) :
    wiringWellFormed [{ source := (v, .encCw), target := (v, .decIn), storage := false }] = true := by
  cases v <;> decide

namespace Machine

theorem connect_of_wellFormed (h : wiringWellFormed wires = true) (s : State) : connect wires s = .next s :=
  if_pos h

theorem connect_of_not_wellFormed (h : wiringWellFormed wires = false) (s : State) :
    connect wires s = .refused .combinationalFeedback :=
  if_neg (Bool.eq_false_iff.mp h)

end Machine

end Sys2Proof
end

section
/-! The statements of the family 70_reset_and_hazards. -/

open Sys2Proof Sys2Proof.Machine Sys2Proof.Safety

/-- Settles O10: an operation completes with all its inputs driven or is stuck on one that is not, and never both. -/
theorem operationsRunExactlyWhenTheirInputsAreDriven : Obligations.OperationsRunExactlyWhenTheirInputsAreDriven := by
  intro i s
  obtain ⟨hdriven, hnext⟩ | ⟨p, hfault, hunit, hundriven⟩ := exec_completes_or_stuck i s
  · exact ⟨fun _ => hnext, fun hnot => absurd hdriven hnot⟩
  · exact ⟨fun hdriven => absurd (hdriven p hunit) (Bool.eq_false_iff.mp hundriven),
      fun _ => ⟨p, hfault, hunit, hundriven⟩⟩

/-- Settles O47: the outputs of either unit sampled after T_SETTLE and before, for each variant's tables. -/
theorem settledOutputsAreTheFunctionOfTheInputs : Obligations.SettledOutputsAreTheFunctionOfTheInputs :=
  ⟨fun s _ _ elapsed hv hg => sampleEncCw_cases hv hg tablesA .A elapsed s,
    fun s _ _ _ elapsed hy hc => sampleDecoder_cases hy hc .A elapsed s,
    fun s _ _ elapsed hv hg => sampleEncCw_cases hv hg tablesB .B elapsed s,
    fun s _ _ _ elapsed hy hc => sampleDecoder_cases hy hc .B elapsed s,
    fun s _ _ elapsed hv hg => sampleEncCw_cases hv hg tablesC .C elapsed s,
    fun s _ _ _ elapsed hy hc => sampleDecoder_cases hy hc .C elapsed s⟩

/-- Settles O48: a unit joined to itself reaches itself, and storage cuts every path. -/
theorem combinationalFeedbackIsRefused : Obligations.CombinationalFeedbackIsRefused :=
  ⟨fun _ _ s hw hunit hstorage => connect_of_not_wellFormed (wiringWellFormed_of_self_loop hw hunit hstorage) s,
    fun _ s hstorage => connect_of_wellFormed (wiringWellFormed_of_storage hstorage) s,
    fun v s => connect_of_wellFormed (wiringWellFormed_encCw_decIn v) s⟩

/-- Settles O9: every block is undriven, and with nothing requested or on record a step is idle. -/
theorem resetHasNothingDriven : Obligations.ResetHasNothingDriven := by
  refine ⟨driven_reset, rfl, rfl, rfl, rfl, rfl, rfl, rfl, rfl, rfl, rfl, rfl, rfl, ?_⟩
  rw [step_of_request_nil rfl, beginStep_of_stops_nil rfl]

end
